-- ==== Sys2Proof/Word.lean ====
section
/-! DEFINITION. The value widths of the block: bytes, nibbles, the 12-bit declared length and the 2-bit operation
code (spec/00_scope.md R5, R6). Bit 0 of every value is its least significant bit; everything is unsigned. -/

namespace Sys2Proof

/-- A byte: a node address (`ADDR_W` = 8) or one data or payload byte. -/
abbrev Byte := BitVec 8

/-- Half a byte: the discriminator, the field `low`, a sequence number (`SEQ_W` = 4). -/
abbrev Nibble := BitVec 4

/-- A 12-bit quantity (`LEN_W` = 12): the declared length and `rx_count`. -/
abbrev Len := BitVec 12

/-- The 2-bit operation code of a command port (R72, decision D2). -/
abbrev OpCode := BitVec 2

end Sys2Proof
end

