-- ==== Sys2Proof/Config.lean ====
section
/-! DEFINITION. What an implementation fixes: the channel identifier's type (the one OPEN parameter of spec/00_scope.md
R5) and the two limits that say which values can be presented to the block at all. The block draws no value from
anywhere (spec/10_state.md R32), so there is no free value here. -/

namespace Sys2Proof.Config

/-- A channel identifier. `IDW` is OPEN (R5, D11: "the model takes `IDW` as an argument, or uses an unbounded natural
number"); this model uses an unbounded natural number. DESIGN CHOICE, log entry 1; safe: no rule computes on it. -/
abbrev Id := Nat

/-- `FRAME_MAX` (R5): most data bytes in one link frame. -/
def frameMax : Nat := 8

/-- `LEN_MAX` (R5): greatest declared length, and the longest payload that can be presented to `ENC` (R87). -/
def lenMax : Nat := 4095

/-- `BUF_SIZE` (R5, D27): capacity of the reassembly buffer; its addresses are 0 to 4094 (R40). -/
def bufSize : Nat := 4095

end Sys2Proof.Config
end

