-- ==== Sys2Proof/Syntax.lean ====
section
/-! DEFINITION. What the host presents to the block (frames and commands) and the instructions these stand for: one
constructor of `Instr` per row of spec/opcode_table.json. The table has two formats (spec/30_encoding.md R74): the
HOSTOP rows are the operations a host selects, the FRAME rows are the frame classes in which `PUSH` splits. -/

namespace Sys2Proof

/-- A link frame as it stands at the block's boundary: `{ id, length, data }` (R26). The host may present a `length`
that is no count of the data bytes; such a value is no frame (`Frame.IsFrame`) and is refused. -/
structure Frame where
  id     : Config.Id
  length : Nat
  data   : List Byte
deriving DecidableEq, Repr

/-- What the host drives on a command port (R72): the operation code and one lane per operand. `PUSH` takes `frame`;
`ENC` takes `id`, `dest` and `payload`; `ABORT` takes nothing; the lanes an operation does not take are never read. -/
structure Command where
  op      : OpCode
  frame   : Frame
  id      : Config.Id
  dest    : Nat
  payload : List Byte
deriving DecidableEq, Repr

/-- One constructor per row of spec/opcode_table.json. In the six frame classes `addr` is data byte 0, the next field
holds the bits of data byte 1 that the row leaves open, and `body` is the data bytes from index 2 on. -/
inductive Instr where
  /-- `SF`, single frame (R62, R102): `dl` is `SF_DL`, byte 1 bits 3:0. -/
  | sf (id : Config.Id) (addr : Byte) (dl : Nibble) (body : List Byte)
  /-- `FF`, first frame (R63, R103): `hi` is `FF_DL[11:8]`, byte 1 bits 3:0; `FF_DL[7:0]` is the first byte of `body`. -/
  | ff (id : Config.Id) (addr : Byte) (hi : Nibble) (body : List Byte)
  /-- `CF`, consecutive frame (R65, R104): `sn` is the sequence number, byte 1 bits 3:0. -/
  | cf (id : Config.Id) (addr : Byte) (sn : Nibble) (body : List Byte)
  /-- `FC`, flow-control frame (R66, R105): `low` is byte 1 bits 3:0, ignored. -/
  | fc (id : Config.Id) (addr : Byte) (low : Nibble) (body : List Byte)
  /-- `UNK_4_7`, discriminators 4 to 7 (R106): `low` is byte 1 bits 5:0, ignored. -/
  | unk47 (id : Config.Id) (addr : Byte) (low : BitVec 6) (body : List Byte)
  /-- `UNK_8_F`, discriminators 8 to 15 (R106): `low` is byte 1 bits 6:0, ignored. -/
  | unk8F (id : Config.Id) (addr : Byte) (low : BitVec 7) (body : List Byte)
  /-- `PUSH` (R100): take one incoming frame, of whatever class. -/
  | push (f : Frame)
  /-- `ENC` (R80): segment a message. -/
  | enc (id : Config.Id) (dest : Nat) (payload : List Byte)
  /-- `ABORT` (R120): discard any message in progress. -/
  | abort
  /-- `RSVD_OP3` (R121): operation code 3, which selects nothing. -/
  | rsvdOp3
deriving DecidableEq, Repr

/-- The two forms in which spec/opcode_table.json writes an instruction (R74): a command (HOSTOP rows) or the frame
that is the operand of a `PUSH` (FRAME rows). -/
inductive Code where
  | command (c : Command)
  | frame (f : Frame)
deriving DecidableEq, Repr

/-- Why the decoder reads no instruction from a code. -/
inductive Reject where
  /-- `length` is above 8 or differs from the number of data bytes: not a frame value (R26, R70, U16). Safe. -/
  | notAFrame
  /-- More than 4095 payload bytes cannot be presented to `ENC` (R87, U10). Safe. -/
  | payloadTooLong
deriving DecidableEq, Repr

end Sys2Proof
end

