-- ==== Sys2Proof/WellFormed.lean ====
section
/-! DEFINITION. Which frames and instructions can be presented to the block. -/

namespace Sys2Proof

/-- A frame value has exactly `length` data bytes, 0 to 8 of them (R26, D5). -/
abbrev Frame.IsFrame (f : Frame) : Prop := f.data.length = f.length ∧ f.length ≤ Config.frameMax

/-- The body of a classified frame: what follows bytes 0 and 1, so at most 6 bytes (R26). -/
abbrev BodyFits (body : List Byte) : Prop := body.length + 2 ≤ Config.frameMax

/-- The payload of `ENC` has at most 4095 bytes (R87). -/
abbrev PayloadFits (payload : List Byte) : Prop := payload.length ≤ Config.lenMax

/-- An instruction that some code of spec/opcode_table.json stands for. -/
def Instr.wellFormed : Instr → Bool
  | .sf _ _ _ body => decide (BodyFits body)
  | .ff _ _ _ body => decide (BodyFits body)
  | .cf _ _ _ body => decide (BodyFits body)
  | .fc _ _ _ body => decide (BodyFits body)
  | .unk47 _ _ _ body => decide (BodyFits body)
  | .unk8F _ _ _ body => decide (BodyFits body)
  | .push f => decide f.IsFrame
  | .enc _ _ payload => decide (PayloadFits payload)
  | .abort => true
  | .rsvdOp3 => true

end Sys2Proof
end

