-- ==== Sys2Proof/Decode.lean ====
section
/-! DEFINITION. From codes to instructions and back (spec/30_encoding.md R60 to R74): the bit-field helpers, the frame
decoder written from the FRAME rows of spec/opcode_table.json, the command decoder written from its HOSTOP rows, the
encoder, and the table words of the host's probe. -/

namespace Sys2Proof

/-- Byte 1 bits 7:4 of a frame, the discriminator `type` (R61). -/
def highNibble (b : Byte) : Nibble := b.extractLsb' 4 4

/-- Bits 3:0 of a byte, the field `low` (R61). -/
def lowNibble (b : Byte) : Nibble := b.extractLsb' 0 4

/-- The byte with bits 7:4 `hi` and bits 3:0 `lo`. -/
def packNibbles (hi lo : Nibble) : Byte := hi ++ lo

/-- A FRAME row's test on data byte 1: `(byte1 & mask) = match` (R74). -/
def rowSelects (pattern mask b1 : Byte) : Bool := (b1 &&& mask) == pattern

/-- The FRAME row that selects data byte 1, in the table's order, with the open bits of byte 1 pulled out (R64). The
last row, `UNK_8_F`, needs no test of its own: the rows cover all 256 values (R74). -/
def classify (id : Config.Id) (addr b1 : Byte) (body : List Byte) : Instr :=
  if rowSelects 0x00 0xF0 b1 then .sf id addr (lowNibble b1) body
  else if rowSelects 0x10 0xF0 b1 then .ff id addr (lowNibble b1) body
  else if rowSelects 0x20 0xF0 b1 then .cf id addr (lowNibble b1) body
  else if rowSelects 0x30 0xF0 b1 then .fc id addr (lowNibble b1) body
  else if rowSelects 0x40 0xC0 b1 then .unk47 id addr (b1.extractLsb' 0 6) body
  else .unk8F id addr (b1.extractLsb' 0 7) body

/-- The instruction a `PUSH` of the frame comes to (R64, R74), read "after the length check of R101": the frame class
whose row selects byte 1. A frame with fewer than 2 data bytes has no byte 1 and no row selects it; it stays the `PUSH`
it is the operand of, whose own test answers it. -/
def decodeFrame (f : Frame) : Except Reject Instr :=
  if f.IsFrame then
    match f.data with
    | addr :: b1 :: body => .ok (classify f.id addr b1 body)
    | _ => .ok (.push f)
  else .error .notAFrame

/-- The operation a command selects (R72): 0 `PUSH`, 1 `ENC`, 2 `ABORT`, 3 reserved. What cannot be presented (R26,
R87) is rejected by name. -/
def decode (c : Command) : Except Reject Instr :=
  if c.op = 0 then (if c.frame.IsFrame then .ok (.push c.frame) else .error .notAFrame)
  else if c.op = 1 then
    (if PayloadFits c.payload then .ok (.enc c.id c.dest c.payload) else .error .payloadTooLong)
  else if c.op = 2 then .ok .abort
  else .ok .rsvdOp3

/-- The decoder on either form of the table. -/
def decodeCode : Code → Except Reject Instr
  | .command c => decode c
  | .frame f => decodeFrame f

/-- The frame with no data bytes, which stands on the frame lane of a command that takes no frame. -/
def emptyFrame : Frame := { id := 0, length := 0, data := [] }

/-- The command with operation code `op` and nothing on its operand lanes. -/
def bareCommand (op : OpCode) : Command := { op := op, frame := emptyFrame, id := 0, dest := 0, payload := [] }

/-- `PUSH f` as a command (R72: `op = 0`). -/
def pushCommand (f : Frame) : Command := { bareCommand 0 with frame := f }

/-- `ENC id, dest, payload` as a command (R72: `op = 1`). -/
def encCommand (id : Config.Id) (dest : Nat) (payload : List Byte) : Command :=
  { bareCommand 1 with id := id, dest := dest, payload := payload }

/-- A frame whose `length` is the number of its data bytes (R26). -/
def frameOf (id : Config.Id) (data : List Byte) : Frame := { id := id, length := data.length, data := data }

/-- The code of an instruction, written from the column `encoding` of spec/opcode_table.json: data byte 1 has the row's
fixed bits on top and its open bits below. -/
def encode : Instr → Code
  | .sf id addr dl body => .frame (frameOf id (addr :: packNibbles 0 dl :: body))
  | .ff id addr hi body => .frame (frameOf id (addr :: packNibbles 1 hi :: body))
  | .cf id addr sn body => .frame (frameOf id (addr :: packNibbles 2 sn :: body))
  | .fc id addr low body => .frame (frameOf id (addr :: packNibbles 3 low :: body))
  | .unk47 id addr low body => .frame (frameOf id (addr :: ((1 : BitVec 2) ++ low) :: body))
  | .unk8F id addr low body => .frame (frameOf id (addr :: ((1 : BitVec 1) ++ low) :: body))
  | .push f => .command (pushCommand f)
  | .enc id dest payload => .command (encCommand id dest payload)
  | .abort => .command (bareCommand 2)
  | .rsvdOp3 => .command (bareCommand 3)

/-- The command that makes the block run a code: a frame is the operand of a `PUSH` (R74, R100). -/
def commandOf : Code → Command
  | .command c => c
  | .frame f => pushCommand f

/-- The eight data bytes a table word stands for. The table's `match`, `mask` and `fixed` number data byte 1 as bits 7:0
(R74), so a word below 256 is data byte 1; a wider word is the column `encoding` laid out bytewise, data byte `k` in
bits `8k+7 : 8k`. Every byte the word does not give is 0. Log entry 12. -/
def tableBytes (w : Nat) : List Byte :=
  if w < 256 then [0, BitVec.ofNat 8 w, 0, 0, 0, 0, 0, 0]
  else [BitVec.ofNat 8 w, BitVec.ofNat 8 (w / 256), BitVec.ofNat 8 (w / 65536), 0, 0, 0, 0, 0]

/-- The code of a table word of `nbits` bits: a word of one byte below 4 is a HOSTOP row's 2-bit operation code, with
operands of zeros (for `PUSH`, a frame of eight zero bytes); every other word is a FRAME row's. The words 0 to 3 are
also byte 1 of single frames; log entry 12 says why they are read as operation codes. -/
def tableCode (nbits w : Nat) : Code :=
  if nbits ≤ 8 ∧ w < 4 then .command { bareCommand (BitVec.ofNat 2 w) with frame := frameOf 0 (tableBytes 0) }
  else .frame (frameOf 0 (tableBytes w))

/-- What the decoder reads from a table word. -/
def decodeTableWord (nbits w : Nat) : Option Instr :=
  match decodeCode (tableCode nbits w) with
  | .ok i => some i
  | .error _ => none

end Sys2Proof
end

