-- ==== Sys2Proof/Machine/State.lean ====
section
/-! DEFINITION. The state of one block instance (spec/10_state.md R20 to R33), the value types it returns, and the
reasons a step can stop. `handler` is the whole architectural state; `pending` and `results` are the model's own record
of the host interface (spec/70_reset_and_hazards.md R160): the operations the host has issued and the block has not
taken yet, and the results it has handed over. -/

namespace Sys2Proof.Machine

/-- A Message (R26): `addr` is CANARD's `destination_address`; there is no source address (conflict C2). -/
structure Message where
  id             : Config.Id
  addr           : Byte
  declaredLength : Len
  data           : List Byte
deriving DecidableEq, Repr

/-- The error kinds of `PUSH` (spec/60_exceptions.md R130). An error carries its kind and nothing else. -/
inductive ErrorKind where
  | invalidLength
  | sequenceError
  | lengthMismatch
  | unknownDiscriminator
  | malformedFrame
deriving DecidableEq, Repr

/-- How an operation ends (R27). A result is an output of its operation, not state. -/
inductive Result where
  /-- `None`: `PUSH` took the frame and no message is complete. -/
  | none
  /-- `Msg(m)`: `PUSH` hands over a completed Message. -/
  | msg (m : Message)
  /-- `Err(e)`: `PUSH` found an error. -/
  | err (e : ErrorKind)
  /-- The ordered frame sequence of `ENC`. -/
  | frames (fs : List Frame)
  /-- `ABORT` and reset end with no value. -/
  | noValue
deriving DecidableEq, Repr

/-- The registers that hold a value while `st = Receiving` (R20): `msg.id`, `msg.addr`, `msg.declared_length`, `BUF`,
`rx_count`, `exp_seq`. `buf` is the buffer's memory, a list of (address, byte) cells with addresses strictly rising
(`Memory.wf`); an address not listed holds no value (U18, U19). -/
structure Reassembly where
  id             : Config.Id
  addr           : Byte
  declaredLength : Len
  buf            : List Host.Cell
  rxCount        : Len
  expSeq         : Nibble
deriving DecidableEq, Repr

/-- The register `st` with what it guards (R20, R21): in `idle` no other register holds a value, so `idle` has no
fields (R33, D16). -/
inductive Handler where
  | idle
  | receiving (r : Reassembly)
deriving DecidableEq, Repr

/-- What the host can do to the block (R160): reset it, or issue an operation. -/
inductive HostInput where
  | reset
  | command (c : Command)
deriving DecidableEq, Repr

/-- One block instance with its host interface. -/
structure State where
  /-- The handler state, the block's whole architectural state (R20). -/
  handler : Handler
  /-- What the host has issued and the block has not taken yet, oldest first (the model's own, log entry 3). -/
  pending : List HostInput
  /-- The results handed to the host, oldest first (the model's own, log entry 4). No operation reads it. -/
  results : List Result
deriving DecidableEq, Repr

/-- The block right after its creation (R30, R150): Idle, nothing issued, nothing handed over. -/
def State.reset : State := { handler := .idle, pending := [], results := [] }

/-- The reasons for which the machine stops with a fault. -/
inductive Fault where
  /-- Raised by `MemRead` (in the completing consecutive frame) when a byte of `BUF` that holds no value is read. The
  spec says no rule does (R41, U19), and from every state that meets the invariant none does. Safe. -/
  | bufferByteHasNoValue
deriving DecidableEq, Repr

/-- The reasons for which an instruction is given no meaning. -/
inductive Refusal where
  /-- Raised by an arm of `exec` whose instruction has no meaning yet. Safe. No arm does. -/
  | notModelled (mnemonic : String)
  /-- Raised by a `PUSH` whose operand is not a frame value (R26, R70, U16). Safe. -/
  | notAFrame
  /-- Raised by an `ENC` with more than 4095 payload bytes (R87, U10). Safe. -/
  | payloadTooLong
  /-- Raised by operation code 3, which selects nothing (R72, R121, U22). Safe. -/
  | reservedOperation
deriving DecidableEq, Repr

end Sys2Proof.Machine
end

