-- ==== Sys2Proof/Machine/Ops.lean ====
section
/-! DEFINITION. The operations all meanings share: the reassembly buffer's memory (spec/20_memory.md R40, R41), handing
over a result (spec/10_state.md R27), raising an error (spec/60_exceptions.md R137) and the abort that follows it
(spec/42_control.md R120). -/

namespace Sys2Proof.Machine

/-- One byte of `BUF`: an address that is not listed holds no value (R20, U19). -/
def readByte : List Host.Cell → Nat → Option Byte
  | [], _ => none
  | (k, v) :: rest, a => if k = a then some v else readByte rest a

/-- Writes one byte of `BUF`, keeping the addresses strictly rising. -/
def writeByte : List Host.Cell → Nat → Byte → List Host.Cell
  | [], a, b => [(a, b)]
  | (k, v) :: rest, a, b =>
    if a < k then (a, b) :: (k, v) :: rest
    else if a = k then (a, b) :: rest
    else (k, v) :: writeByte rest a b

/-- `MemWrite(a, |bs|, bs)` (R8): the bytes of `bs` to ascending addresses from `a`. -/
def memWrite : List Host.Cell → Nat → List Byte → List Host.Cell
  | buf, _, [] => buf
  | buf, a, b :: bs => memWrite (writeByte buf a b) (a + 1) bs

/-- `MemRead(a, n)` (R8): the `n` bytes from address `a` in ascending order, if all of them hold a value. -/
def memRead (buf : List Host.Cell) (a : Nat) : Nat → Option (List Byte)
  | 0 => some []
  | n + 1 =>
    match readByte buf a, memRead buf (a + 1) n with
    | some b, some bs => some (b :: bs)
    | _, _ => none

/-- The addresses of the cells are strictly rising, from `lo` on, and within the buffer (R40, R41). -/
def Memory.wfFrom (lo : Nat) : List Host.Cell → Bool
  | [] => true
  | (k, _) :: rest => decide (lo ≤ k) && decide (k < Config.bufSize) && Memory.wfFrom (k + 1) rest

/-- The canonical form of the buffer's memory: addresses strictly rising, none at or above 4095. -/
def Memory.wf (buf : List Host.Cell) : Bool := Memory.wfFrom 0 buf

/-- Hands the result of an operation to the host (R27). -/
def deliver (r : Result) (s : State) : State := { s with results := s.results ++ [r] }

/-- Puts the handler registers into a new state (R20). -/
def setHandler (h : Handler) (s : State) : State := { s with handler := h }

/-- `raise e` (R8, R137): the operation ends at once with result `Err(e)`. Nothing is saved, no mode or vector exists,
and no register written earlier in the same operation is undone. -/
def raise (e : ErrorKind) (s : State) : Host.Outcome State Fault Refusal := .next (deliver (.err e) s)

/-- `return None` (R8). -/
def returnNone (s : State) : Host.Outcome State Fault Refusal := .next (deliver .none s)

/-- `st <- Idle; return Msg(m)`: the way a message is completed (R107). -/
def returnMsg (m : Message) (s : State) : Host.Outcome State Fault Refusal :=
  .next (deliver (.msg m) (setHandler .idle s))

/-- `st <- Idle` with no value returned: what `ABORT`, the return from an error (R120, R139), and reset (R150) do. -/
def clearHandler (s : State) : State := deliver .noValue (setHandler .idle s)

end Sys2Proof.Machine
end

