-- ==== Sys2Proof/Machine/Operands.lean ====
section
/-! DEFINITION. The operand forms: slices of a frame's data bytes (spec/00_scope.md R7), the declared length's assembly
and split (spec/30_encoding.md R67), the sequence counter (R68), the block's fixed numbers (R5), and the updates of the
receiving registers that a chunk makes (spec/20_memory.md R41). -/

namespace Sys2Proof.Machine

/-- `SF_MAX` (R5): greatest single-frame payload. -/
def sfMax : Nat := 6
/-- `SF_LIMIT` (R5): the encoder emits one frame exactly when the payload is shorter. -/
def sfLimit : Nat := 7
/-- `FF_CHUNK` (R5): payload bytes in a first frame. -/
def ffChunk : Nat := 5
/-- `CF_CHUNK` (R5): most payload bytes in a consecutive frame. -/
def cfChunk : Nat := 6
/-- `SF_OFF` (R5): data index of a single frame's first payload byte. -/
def sfOff : Nat := 2
/-- `CF_OFF` (R5): data index of a consecutive frame's first payload byte. -/
def cfOff : Nat := 2
/-- `FF_OFF` (R5): data index of a first frame's first payload byte. -/
def ffOff : Nat := 3
/-- `SEQ_FIRST` (R5): sequence number of the first consecutive frame. -/
def seqFirst : Nibble := 1

/-- `s[a : b]` (R7): half-open, and clamped to the length of `s`. -/
def slice (s : List Byte) (a b : Nat) : List Byte := (s.take b).drop a

/-- `f.data[a : b]` for `2 ≤ a`, where `body` is the data bytes from index 2 on. -/
def dataSlice (body : List Byte) (a b : Nat) : List Byte := slice body (a - 2) (b - 2)

/-- `L = (zext_12(low) << 8) + zext_12(byte2)` (R67): the declared length of a first frame. -/
def assembleLength (low : Nibble) (byte2 : Byte) : Len := (low.setWidth 12 <<< 8) + byte2.setWidth 12

/-- `n[11:8]` of a 12-bit length (R67). -/
def lengthHigh (n : Len) : Nibble := n.extractLsb' 8 4

/-- `n[7:0]` of a 12-bit length (R67). -/
def lengthLow (n : Len) : Byte := n.extractLsb' 0 8

/-- `(a + 1) mod 16` (R68): the successor of a sequence number. -/
def nextSeq (a : Nibble) : Nibble := a + 1

/-- `remaining = msg.declared_length - rx_count` (R104). It never borrows where `rx_count ≤ msg.declared_length`
(R9 (c)); elsewhere, where no run gets, it is 0 (log entry 8). -/
def remaining (r : Reassembly) : Nat := r.declaredLength.toNat - r.rxCount.toNat

/-- The registers a first frame leaves (R103): the buffer is emptied first, then the chunk is written from address 0;
the expected sequence number is 1. -/
def startReassembly (id : Config.Id) (addr : Byte) (declared : Len) (chunk : List Byte) : Reassembly :=
  { id := id, addr := addr, declaredLength := declared, buf := memWrite [] 0 chunk,
    rxCount := BitVec.ofNat 12 chunk.length, expSeq := seqFirst }

/-- The append of a chunk (R41): `MemWrite(rx_count, |c|, c)`, then `rx_count <- rx_count + |c|`. -/
def appendChunk (r : Reassembly) (chunk : List Byte) : Reassembly :=
  { r with buf := memWrite r.buf r.rxCount.toNat chunk, rxCount := BitVec.ofNat 12 (r.rxCount.toNat + chunk.length) }

/-- `exp_seq <- (exp_seq + 1) mod 16` (R104). -/
def advanceSeq (r : Reassembly) : Reassembly := { r with expSeq := nextSeq r.expSeq }

end Sys2Proof.Machine
end

