-- ==== Sys2Proof/Machine/Flags.lean ====
section
/-! DEFINITION. The block has no flags and no condition codes (spec/10_state.md R28): what decides how an operation ends
is a handful of tests, made in the order of spec/60_exceptions.md R136, and the only status is the result, with the
numeric codes of R130. -/

namespace Sys2Proof.Machine

/-- `low` is in [1,6] (R102, R131). -/
def singleLengthLegal (dl : Nibble) : Bool := !(decide (dl.toNat < 1) || decide (dl.toNat > sfMax))

/-- The frame carries the sequence number the handler expects (R104). -/
def sequenceMatches (r : Reassembly) (sn : Nibble) : Bool := sn == r.expSeq

/-- `rx_count = msg.declared_length` (R104, R107): the message is complete. -/
def isComplete (r : Reassembly) : Bool := r.rxCount == r.declaredLength

/-- `rx_count > msg.declared_length` (R104, R109): never true after an append in a run. -/
def overruns (r : Reassembly) : Bool := decide (r.declaredLength.toNat < r.rxCount.toNat)

/-- The numeric code of an error kind (R130, D4). -/
def ErrorKind.code : ErrorKind → Nat
  | .invalidLength => 1
  | .sequenceError => 2
  | .lengthMismatch => 3
  | .unknownDiscriminator => 4
  | .malformedFrame => 5

/-- The error code of a result: 0 where there is no error (R130). -/
def Result.code : Result → Nat
  | .err e => e.code
  | _ => 0

end Sys2Proof.Machine
end

