-- ==== Sys2Proof/Machine/Control.lean ====
section
/-! DEFINITION. The control operations (spec/42_control.md): `ABORT` and the reserved operation code. -/

namespace Sys2Proof.Machine

/-- `ABORT` (R120): Idle, from either state; it cannot fail. -/
def execAbort (s : State) : Host.Outcome State Fault Refusal := .next (clearHandler s)

/-- Operation code 3 (R121): "a model gives it no meaning and refuses it". -/
def execRsvdOp3 (_s : State) : Host.Outcome State Fault Refusal := .refused .reservedOperation

end Sys2Proof.Machine
end

