-- ==== Sys2Proof/Machine/Decoder.lean ====
section
/-! DEFINITION. The reassembly state machine (spec/41_decoder.md): `PUSH` and its frame classes. Every class meaning
takes the frame's `id`, its byte 0, the open bits of byte 1, and `body`, the data bytes from index 2 on. -/

namespace Sys2Proof.Machine

/-- `PushSF` (R102). The length test comes before any state is written, so a rejected single frame leaves a message in
progress as it was (D8). -/
def execSf (id : Config.Id) (addr : Byte) (dl : Nibble) (body : List Byte) (s : State) :
    Host.Outcome State Fault Refusal :=
  if singleLengthLegal dl then
    returnMsg { id := id, addr := addr, declaredLength := dl.setWidth 12,
                data := dataSlice body sfOff (sfOff + dl.toNat) } s
  else raise .invalidLength s

/-- `PushFF` (R103), with the test for byte 2 of R101. A message in progress is silently replaced (R111), and no first
frame completes a message, whatever length it declares (R108). -/
def execFf (id : Config.Id) (addr : Byte) (hi : Nibble) (body : List Byte) (s : State) :
    Host.Outcome State Fault Refusal :=
  match body with
  | [] => raise .malformedFrame s
  | byte2 :: _ =>
    returnNone (setHandler (.receiving (startReassembly id addr (assembleLength hi byte2)
      (dataSlice body ffOff (min ((assembleLength hi byte2).toNat + ffOff) Config.frameMax)))) s)

/-- The end of `PushCF` (R104), after the append has given the registers `r`: equality is tested before excess, and an
excess keeps the append (R133). -/
def finishConsecutive (r : Reassembly) (s : State) : Host.Outcome State Fault Refusal :=
  if isComplete r then
    match memRead r.buf 0 r.rxCount.toNat with
    | some data => returnMsg { id := r.id, addr := r.addr, declaredLength := r.declaredLength, data := data } s
    | none => .fault .bufferByteHasNoValue
  else if overruns r then raise .lengthMismatch (setHandler (.receiving r) s)
  else returnNone (setHandler (.receiving (advanceSeq r)) s)

/-- `PushCF` (R104). The frame's `id` and byte 0 are not compared with anything (R110). -/
def execCf (_id : Config.Id) (_addr : Byte) (sn : Nibble) (body : List Byte) (s : State) :
    Host.Outcome State Fault Refusal :=
  match s.handler with
  | .idle => raise .sequenceError s
  | .receiving r =>
    if sequenceMatches r sn then
      finishConsecutive (appendChunk r (dataSlice body cfOff (cfOff + min (remaining r) cfChunk))) s
    else raise .sequenceError s

/-- `PushFC` (R105): no effect in any state. -/
def execFc (_id : Config.Id) (_addr : Byte) (_low : Nibble) (_body : List Byte) (s : State) :
    Host.Outcome State Fault Refusal :=
  returnNone s

/-- `PushUNK` (R106), discriminators 4 to 7. -/
def execUnk47 (_id : Config.Id) (_addr : Byte) (_low : BitVec 6) (_body : List Byte) (s : State) :
    Host.Outcome State Fault Refusal :=
  raise .unknownDiscriminator s

/-- `PushUNK` (R106), discriminators 8 to 15. -/
def execUnk8F (_id : Config.Id) (_addr : Byte) (_low : BitVec 7) (_body : List Byte) (s : State) :
    Host.Outcome State Fault Refusal :=
  raise .unknownDiscriminator s

/-- The case of R100 on `type`, byte 1 bits 7:4, which is taken in every state. -/
def pushByType (id : Config.Id) (addr b1 : Byte) (body : List Byte) (s : State) : Host.Outcome State Fault Refusal :=
  match (highNibble b1).toNat with
  | 0 => execSf id addr (lowNibble b1) body s
  | 1 => execFf id addr (lowNibble b1) body s
  | 2 => execCf id addr (lowNibble b1) body s
  | 3 => execFc id addr (lowNibble b1) body s
  | t => if t < 8 then execUnk47 id addr (b1.extractLsb' 0 6) body s
         else execUnk8F id addr (b1.extractLsb' 0 7) body s

/-- `PUSH` (R100): a frame without byte 1 is malformed (R101), any other goes to its class. An operand that is no frame
value is refused (R26, U16). -/
def execPush (f : Frame) (s : State) : Host.Outcome State Fault Refusal :=
  if f.IsFrame then
    match f.data with
    | addr :: b1 :: body => pushByType f.id addr b1 body s
    | _ => raise .malformedFrame s
  else .refused .notAFrame

end Sys2Proof.Machine
end

