-- ==== Sys2Proof/Machine/Encoder.lean ====
section
/-! DEFINITION. The segmentation encoder (spec/40_encoder.md): `ENC` and its three frame builders, pure functions of the
operands. -/

namespace Sys2Proof.Machine

/-- `a = dest & 0xFF` (R86). -/
def maskAddr (dest : Nat) : Byte := BitVec.ofNat 8 (dest &&& 0xFF)

/-- `EncSF` (R81). -/
def encSF (id : Config.Id) (a : Byte) (payload : List Byte) : Frame :=
  { id := id, length := payload.length + 2,
    data := [a, 0x00#8 ||| BitVec.ofNat 8 payload.length] ++ payload }

/-- `EncFF` (R82), with the length field of R67. -/
def encFF (id : Config.Id) (a : Byte) (n : Nat) (payload : List Byte) : Frame :=
  { id := id, length := min (n + 3) 8,
    data := [a, 0x10#8 ||| (lengthHigh (BitVec.ofNat 12 n)).setWidth 8, lengthLow (BitVec.ofNat 12 n)]
              ++ slice payload 0 ffChunk }

/-- `EncCF` (R83): the `j`-th consecutive frame, counted from 1. -/
def encCF (id : Config.Id) (a : Byte) (j : Nat) (chunk : List Byte) : Frame :=
  { id := id, length := chunk.length + 2, data := [a, 0x20#8 ||| BitVec.ofNat 8 (j % 16)] ++ chunk }

/-- The loop of R80 from offset `off` and frame number `j` on. Each turn takes at least one payload byte, so `fuel` of
at least the bytes left never runs out. -/
def encLoop (id : Config.Id) (a : Byte) (payload : List Byte) : (fuel off j : Nat) → List Frame
  | 0, _, _ => []
  | fuel + 1, off, j =>
    if off < payload.length then
      encCF id a j (slice payload off (off + min cfChunk (payload.length - off)))
        :: encLoop id a payload fuel (off + min cfChunk (payload.length - off)) (j + 1)
    else []

/-- The frames of `ENC` (R80): one single frame below 7 payload bytes, else a first frame and consecutive frames. -/
def encFrames (id : Config.Id) (dest : Nat) (payload : List Byte) : List Frame :=
  if payload.length < sfLimit then [encSF id (maskAddr dest) payload]
  else encFF id (maskAddr dest) payload.length payload
    :: encLoop id (maskAddr dest) payload payload.length ffChunk 1

/-- `ENC` (R80): the whole frame sequence is the result of one operation, and no handler register is read or written
(R88). More than 4095 payload bytes cannot be presented (R87). -/
def execEnc (id : Config.Id) (dest : Nat) (payload : List Byte) (s : State) : Host.Outcome State Fault Refusal :=
  if PayloadFits payload then .next (deliver (.frames (encFrames id dest payload)) s)
  else .refused .payloadTooLong

end Sys2Proof.Machine
end

