-- ==== Sys2Proof/Machine/Dispatch.lean ====
section
/-! DEFINITION. One arm per row of spec/opcode_table.json. -/

namespace Sys2Proof.Machine

def exec (i : Instr) (s : State) : Host.Outcome State Fault Refusal :=
  match i with
  | .sf id addr dl body => Sys2Proof.Machine.execSf id addr dl body s
  | .ff id addr hi body => Sys2Proof.Machine.execFf id addr hi body s
  | .cf id addr sn body => Sys2Proof.Machine.execCf id addr sn body s
  | .fc id addr low body => Sys2Proof.Machine.execFc id addr low body s
  | .unk47 id addr low body => Sys2Proof.Machine.execUnk47 id addr low body s
  | .unk8F id addr low body => Sys2Proof.Machine.execUnk8F id addr low body s
  | .push f => Sys2Proof.Machine.execPush f s
  | .enc id dest payload => Sys2Proof.Machine.execEnc id dest payload s
  | .abort => Sys2Proof.Machine.execAbort s
  | .rsvdOp3 => Sys2Proof.Machine.execRsvdOp3 s

end Sys2Proof.Machine
end

