-- ==== Sys2Proof/Machine/Interface.lean ====
section
/-! DEFINITION. How a step takes the host's next input (spec/20_memory.md R50, R52; spec/70_reset_and_hazards.md R150,
R160): what reset does, what an issued command does, and where the host's probe word goes. -/

namespace Sys2Proof.Machine

/-- Reset is the creation of the handler: `st <- Idle`, from any state, with no value returned (R150, R27). -/
def execReset (s : State) : Host.Outcome State Fault Refusal := .next (clearHandler s)

/-- The refusal for a command that cannot be presented (R26, R87). -/
def refusalOf : Reject → Refusal
  | .notAFrame => .notAFrame
  | .payloadTooLong => .payloadTooLong

/-- Runs the operation a command selects. -/
def execCommand (c : Command) (s : State) : Host.Outcome State Fault Refusal :=
  match decode c with
  | .ok i => exec i s
  | .error e => .refused (refusalOf e)

/-- Takes one host input. -/
def execInput (x : HostInput) (s : State) : Host.Outcome State Fault Refusal :=
  match x with
  | .reset => execReset s
  | .command c => execCommand c s

/-- Takes the oldest pending input off the list and runs it; with nothing pending, nothing happens (R138, R161). -/
def takeInput (s : State) : Host.Outcome State Fault Refusal :=
  match s.pending with
  | [] => .next s
  | x :: rest => execInput x { s with pending := rest }

/-- Puts the code in front of everything the host has issued. -/
def issueFirst (c : Code) (s : State) : State := { s with pending := .command (commandOf c) :: s.pending }

end Sys2Proof.Machine
end

