-- ==== Sys2Proof/Machine/Step.lean ====
section
/-! DEFINITION. One step of the block: one host operation, atomically (spec/00_scope.md R4, spec/20_memory.md R47). -/

namespace Sys2Proof.Machine

/-- One step takes the oldest host input that is pending and completes it. -/
def step (s : State) : Host.Outcome State Fault Refusal := takeInput s

/-- The state whose very next step runs the table word: the host has issued it, ahead of anything pending. A FRAME row's
word is the operand of a `PUSH` (R74, R100). -/
def State.withFetchWord (s : State) (nbits w : Nat) : State := issueFirst (tableCode nbits w) s

end Sys2Proof.Machine
end

