-- ==== Sys2Proof/Safety.lean ====
section
/-! DEFINITION. What counts as a legal state (spec/10_state.md R25) and a safe outcome. -/

namespace Sys2Proof.Machine

/-- The receiving registers of a state some run reaches (R25): (b) `BUF` holds exactly the bytes at addresses 0 to
`rx_count - 1`, and `rx_count` is at most the declared length; (d) all declared bytes are there only after a first frame
that declared 5 bytes or less, so with `exp_seq` still 1. -/
structure Reassembly.Inv (r : Reassembly) : Prop where
  buffered : r.buf.map Prod.fst = List.range r.rxCount.toNat
  bounded  : r.rxCount.toNat ≤ r.declaredLength.toNat
  full     : r.rxCount = r.declaredLength → r.declaredLength.toNat ≤ 5 ∧ r.expSeq = 1

/-- The invariant of R25 on the whole state. Idle holds nothing that could break it. -/
def State.Inv (s : State) : Prop :=
  match s.handler with
  | .idle => True
  | .receiving r => r.Inv

/-- The operation behind an instruction: a `PUSH` stands for the frame class of its frame (R64, R100), everything else
for itself. -/
def operationOf : Instr → Instr
  | .push f =>
    match decodeFrame f with
    | .ok i => i
    | .error _ => .push f
  | i => i

/-- The host inputs that push the frames `fs` one at a time, in order (R100, R153). -/
def pushAll (fs : List Frame) : List HostInput := fs.map fun f => .command (pushCommand f)

end Sys2Proof.Machine
end

