-- ==== Sys2Proof/Certificates/Slice0/Obligations.lean ====
section
/-! DEFINITION. What is claimed of the model, rule by rule. Every statement about a next state gives the whole state, or
gives the fields it does not change, so each carries its frame: `pending`, the results handed over before, and every
handler register that is not named keep their values. -/

open Sys2Proof Sys2Proof.Machine

/-! ## Single frames and first frames -/

/-- R102, R131: a single frame with `low` in 1..6 returns its Message at once, from either state, and leaves Idle; with
`low` 0 or 7..15 it raises `InvalidLength` and changes nothing. That a rejected single frame keeps a message in progress is
the spec's decision D8, where U6 also allows a draw, and the model's choice (log entry 9). The payload is clamped to the
bytes the frame has (the spec's decision D7). -/
def Obligations.SingleFrameReturnsItsMessage : Prop :=
  ∀ (id : Config.Id) (addr : Byte) (dl : Nibble) (body : List Byte) (s : State),
    (1 ≤ dl.toNat ∧ dl.toNat ≤ 6 →
      exec (.sf id addr dl body) s = .next { s with
        handler := .idle
        results := s.results ++ [.msg { id := id, addr := addr, declaredLength := BitVec.ofNat 12 dl.toNat,
                                        data := body.take dl.toNat }] }) ∧
    (dl.toNat = 0 ∨ 7 ≤ dl.toNat →
      exec (.sf id addr dl body) s = .next { s with results := s.results ++ [.err .invalidLength] })

/-- R103: a first frame with its length byte leaves Receiving with every register as the rule writes it, from either
state; nothing of a former buffer is left, since no address from `rx_count` on holds a value. Without a length byte it
raises `MalformedFrame` and changes nothing: the spec's decision D6 (R101), which also lets a model refuse such a frame, and
the model's choice (log entry 9). -/
def Obligations.FirstFrameStartsReassembly : Prop :=
  ∀ (id : Config.Id) (addr : Byte) (hi : Nibble) (s : State),
    (∀ (byte2 : Byte) (payload : List Byte),
      ∃ r : Reassembly,
        exec (.ff id addr hi (byte2 :: payload)) s =
          .next { s with handler := .receiving r, results := s.results ++ [.none] } ∧
        r.id = id ∧ r.addr = addr ∧
        r.declaredLength.toNat = 256 * hi.toNat + byte2.toNat ∧
        r.rxCount.toNat = (payload.take (min (256 * hi.toNat + byte2.toNat) 5)).length ∧
        memRead r.buf 0 r.rxCount.toNat = some (payload.take (min (256 * hi.toNat + byte2.toNat) 5)) ∧
        (∀ a, r.rxCount.toNat ≤ a → readByte r.buf a = none) ∧
        r.expSeq = 1) ∧
    exec (.ff id addr hi []) s = .next { s with results := s.results ++ [.err .malformedFrame] }

/-- R101, R135 (the spec's own decision D6, where a model may also refuse; the model's choice, log entry 9): a frame of
length 0 or 1, and a first frame of length 2, raise `MalformedFrame` in any state and change nothing. -/
def Obligations.MalformedFramesChangeNothing : Prop :=
  ∀ s : State,
    (∀ f : Frame, f.IsFrame → f.length < 2 →
      exec (.push f) s = .next { s with results := s.results ++ [.err .malformedFrame] }) ∧
    (∀ (id : Config.Id) (addr b1 : Byte), b1.toNat / 16 = 1 →
      exec (.push { id := id, length := 2, data := [addr, b1] }) s =
        .next { s with results := s.results ++ [.err .malformedFrame] })

/-- R111 (the policy is the source's own, decision D17): an accepted single frame, and every accepted first frame, does to
a handler with a message in progress exactly what it does to an Idle one, so the former message is discarded without an
error. A rejected one leaves the message in progress: for the single frame the spec's decision D8, for the first frame
without byte 2 its decision D6 (R101), and in both the model's choice (log entry 9). -/
def Obligations.StartingFramesOverwriteSilently : Prop :=
  ∀ (id : Config.Id) (addr : Byte) (low : Nibble) (body : List Byte) (r : Reassembly) (s : State),
    (1 ≤ low.toNat ∧ low.toNat ≤ 6 →
      exec (.sf id addr low body) { s with handler := .receiving r } =
        exec (.sf id addr low body) { s with handler := .idle }) ∧
    (low.toNat = 0 ∨ 7 ≤ low.toNat →
      exec (.sf id addr low body) { s with handler := .receiving r } =
        .next { s with handler := .receiving r, results := s.results ++ [.err .invalidLength] }) ∧
    (body ≠ [] →
      exec (.ff id addr low body) { s with handler := .receiving r } =
        exec (.ff id addr low body) { s with handler := .idle }) ∧
    (body = [] →
      exec (.ff id addr low body) { s with handler := .receiving r } =
        .next { s with handler := .receiving r, results := s.results ++ [.err .malformedFrame] })

/-- R108: what follows a first frame that declares 0 to 6 bytes and carries them as far as it can. With `L` of 5 or less
it stores `L` bytes and stays Receiving; the next consecutive frame with sequence number 1, whatever it carries, appends
nothing and returns the Message. With `L = 6` it stores 5, and that consecutive frame supplies the last byte. -/
def Obligations.FirstFramesDeclaringFewBytes : Prop :=
  ∀ (id id' : Config.Id) (addr addr' : Byte) (hi : Nibble) (byte2 : Byte) (payload body : List Byte) (s t : State),
    hi = 0 → exec (.ff id addr hi (byte2 :: payload)) s = .next t →
    t.results = s.results ++ [.none] ∧ (∃ r, t.handler = .receiving r) ∧
    (byte2.toNat ≤ 5 → byte2.toNat ≤ payload.length →
      exec (.cf id' addr' 1 body) t = .next { t with
        handler := .idle
        results := t.results ++ [.msg { id := id, addr := addr, declaredLength := BitVec.ofNat 12 byte2.toNat,
                                        data := payload.take byte2.toNat }] }) ∧
    (byte2.toNat = 6 → 5 ≤ payload.length → ∀ (b : Byte) (rest : List Byte), body = b :: rest →
      exec (.cf id' addr' 1 body) t = .next { t with
        handler := .idle
        results := t.results ++ [.msg { id := id, addr := addr, declaredLength := 6,
                                        data := payload.take 5 ++ [b] }] })

/-! ## Consecutive frames -/

/-- R132: a consecutive frame raises `SequenceError` and changes nothing when the handler is Idle, and when its sequence
number is not the expected one. -/
def Obligations.ConsecutiveFrameOutOfTurn : Prop :=
  ∀ (id : Config.Id) (addr : Byte) (sn : Nibble) (body : List Byte) (s : State),
    (s.handler = .idle ∨ ∃ r, s.handler = .receiving r ∧ sn ≠ r.expSeq) →
    exec (.cf id addr sn body) s = .next { s with results := s.results ++ [.err .sequenceError] }

/-- R104, in every state that meets the invariant: the two tests; the append of the frame's chunk, limited to 6 bytes and
to what the message still needs; then completion, or the next sequence number (15 is followed by 0). `d` is the payload
received before the frame. The branch for `LengthMismatch` is not among the cases because none of them leaves it. -/
def Obligations.ConsecutiveFrameRule : Prop :=
  ∀ (id : Config.Id) (addr : Byte) (sn : Nibble) (body : List Byte) (s : State), s.Inv →
    (s.handler = .idle →
      exec (.cf id addr sn body) s = .next { s with results := s.results ++ [.err .sequenceError] }) ∧
    ∀ r : Reassembly, s.handler = .receiving r →
      (sn ≠ r.expSeq →
        exec (.cf id addr sn body) s = .next { s with results := s.results ++ [.err .sequenceError] }) ∧
      (sn = r.expSeq →
        ∃ d : List Byte, memRead r.buf 0 r.rxCount.toNat = some d ∧
          ∀ chunk, chunk = body.take (min (r.declaredLength.toNat - r.rxCount.toNat) 6) →
            (r.rxCount.toNat + chunk.length = r.declaredLength.toNat →
              exec (.cf id addr sn body) s = .next { s with
                handler := .idle
                results := s.results ++ [.msg { id := r.id, addr := r.addr, declaredLength := r.declaredLength,
                                                data := d ++ chunk }] }) ∧
            (r.rxCount.toNat + chunk.length ≠ r.declaredLength.toNat →
              ∃ r' : Reassembly,
                exec (.cf id addr sn body) s =
                  .next { s with handler := .receiving r', results := s.results ++ [.none] } ∧
                r'.id = r.id ∧ r'.addr = r.addr ∧ r'.declaredLength = r.declaredLength ∧
                r'.rxCount.toNat = r.rxCount.toNat + chunk.length ∧
                memRead r'.buf 0 r'.rxCount.toNat = some (d ++ chunk) ∧
                r'.expSeq.toNat = (r.expSeq.toNat + 1) % 16))

/-- R41: what a consecutive frame stores, in every state whatever. If it leaves Receiving, the bytes at and after the old
`rx_count` are the chunk's, in order, and every other address of the buffer reads as before. -/
def Obligations.ConsecutiveFrameStoresOnlyItsChunk : Prop :=
  ∀ (id : Config.Id) (addr : Byte) (body : List Byte) (s t : State) (r r' : Reassembly),
    s.handler = .receiving r → exec (.cf id addr r.expSeq body) s = .next t → t.handler = .receiving r' →
    ∀ chunk, chunk = body.take (min (r.declaredLength.toNat - r.rxCount.toNat) 6) →
      (∀ k, k < chunk.length → readByte r'.buf (r.rxCount.toNat + k) = chunk[k]?) ∧
      (∀ a, a < r.rxCount.toNat ∨ r.rxCount.toNat + chunk.length ≤ a → readByte r'.buf a = readByte r.buf a)

/-- R110, R71: a consecutive frame's `id` and byte 0, and its data bytes after the chunk, decide nothing. -/
def Obligations.ConsecutiveFrameIgnoresAddressIdAndPadding : Prop :=
  ∀ (id id' : Config.Id) (addr addr' : Byte) (sn : Nibble) (body body' : List Byte) (s : State) (r : Reassembly),
    s.handler = .receiving r →
    body.take (min (r.declaredLength.toNat - r.rxCount.toNat) 6) =
      body'.take (min (r.declaredLength.toNat - r.rxCount.toNat) 6) →
    exec (.cf id addr sn body) s = exec (.cf id' addr' sn body') s

/-- R109: from every state that meets the invariant, no instruction hands over `LengthMismatch`. -/
def Obligations.LengthMismatchNeverReturned : Prop :=
  ∀ (i : Instr) (s t : State), s.Inv → exec i s = .next t → t.results ≠ s.results ++ [.err .lengthMismatch]

/-- R109, R25 (b) over the states a run reaches: whatever the host issues after reset (resets among it), in whatever order
and however far the run goes, `LengthMismatch` is among none of the results handed over, and in Receiving the count is at
most the declared length. The lists of inputs and results are the model's choice (log entries 3 and 4). -/
def Obligations.LengthMismatchNeverOccursInARun : Prop :=
  ∀ (inputs : List HostInput) (n : Nat) (t : State),
    Host.Core.run Sys2Proof.core n { State.reset with pending := inputs } = .next t →
    .err .lengthMismatch ∉ t.results ∧
    ∀ r, t.handler = .receiving r → r.rxCount.toNat ≤ r.declaredLength.toNat

/-- R24, R25 (c): `k` consecutive frames accepted one after another, none of them completing the message, leave
`exp_seq` at `(1 + k) mod 16` if the first of them found it at 1, and keep the registers of the starting frame. -/
def Obligations.SequenceNumberCountsAcceptedFrames : Prop :=
  ∀ (fs : List Frame) (s t : State) (r : Reassembly) (rest : List HostInput),
    (∀ f ∈ fs, ∃ id addr sn body, decodeFrame f = .ok (.cf id addr sn body)) →
    s.handler = .receiving r → r.expSeq = 1 → s.pending = pushAll fs ++ rest →
    Host.Core.run Sys2Proof.core fs.length s = .next t →
    t.results = s.results ++ List.replicate fs.length .none →
    t.pending = rest ∧
    ∃ r' : Reassembly, t.handler = .receiving r' ∧ r'.expSeq.toNat = (1 + fs.length) % 16 ∧
      r'.id = r.id ∧ r'.addr = r.addr ∧ r'.declaredLength = r.declaredLength ∧
      r.rxCount.toNat ≤ r'.rxCount.toNat

/-- R153: the sequence test cannot see sixteen lost frames. In a Receiving state that meets the invariant and expects
frame `j`, a `PUSH` of the sender's frame `j + 16` is accepted: its bytes, as many as the message still needs, stand from
`rx_count` on behind the payload `d`, and it completes the message or returns `None`; it never raises `SequenceError`. -/
def Obligations.SixteenLostFramesAreNotSeen : Prop :=
  ∀ (id : Config.Id) (a : Byte) (j : Nat) (chunk : List Byte) (s : State) (r : Reassembly),
    s.Inv → s.handler = .receiving r → r.expSeq.toNat = j % 16 → chunk.length ≤ 6 →
    ∃ d : List Byte, memRead r.buf 0 r.rxCount.toNat = some d ∧
      ∀ part, part = chunk.take (r.declaredLength.toNat - r.rxCount.toNat) →
        (r.rxCount.toNat + part.length = r.declaredLength.toNat →
          exec (.push (encCF id a (j + 16) chunk)) s = .next { s with
            handler := .idle
            results := s.results ++ [.msg { id := r.id, addr := r.addr, declaredLength := r.declaredLength,
                                            data := d ++ part }] }) ∧
        (r.rxCount.toNat + part.length ≠ r.declaredLength.toNat →
          ∃ r' : Reassembly,
            exec (.push (encCF id a (j + 16) chunk)) s =
              .next { s with handler := .receiving r', results := s.results ++ [.none] } ∧
            r'.id = r.id ∧ r'.addr = r.addr ∧ r'.declaredLength = r.declaredLength ∧
            r'.rxCount.toNat = r.rxCount.toNat + part.length ∧
            memRead r'.buf 0 r'.rxCount.toNat = some (d ++ part) ∧
            (∀ k, k < part.length → readByte r'.buf (r.rxCount.toNat + k) = part[k]?) ∧
            r'.expSeq.toNat = (j + 16 + 1) % 16)

/-- R107: completion, by an accepted single frame (from any state) and by a consecutive frame that brings the count to the
declared length (from a state that meets the invariant; `d` is the payload received before it). The Message has the `id`
and `addr` of the frame that started it, the declared length and the payload bytes in order; the handler is Idle, and the
next consecutive frame, whatever it holds, raises `SequenceError` as in a fresh handler. -/
def Obligations.CompletionLeavesAFreshHandler : Prop :=
  ∀ s : State,
    (∀ (id : Config.Id) (addr : Byte) (dl : Nibble) (body : List Byte), 1 ≤ dl.toNat → dl.toNat ≤ 6 →
      ∃ t, exec (.sf id addr dl body) s = .next t ∧
        t.handler = .idle ∧ t.pending = s.pending ∧
        t.results = s.results ++ [.msg { id := id, addr := addr, declaredLength := BitVec.ofNat 12 dl.toNat,
                                         data := body.take dl.toNat }] ∧
        ∀ (id' : Config.Id) (addr' : Byte) (sn : Nibble) (body' : List Byte),
          exec (.cf id' addr' sn body') t = .next { t with results := t.results ++ [.err .sequenceError] }) ∧
    (∀ (id : Config.Id) (addr : Byte) (body d : List Byte) (r : Reassembly), s.Inv → s.handler = .receiving r →
      memRead r.buf 0 r.rxCount.toNat = some d →
      r.declaredLength.toNat ≤ r.rxCount.toNat + min 6 body.length →
      ∃ t, exec (.cf id addr r.expSeq body) s = .next t ∧
        t.handler = .idle ∧ t.pending = s.pending ∧
        t.results = s.results ++ [.msg { id := r.id, addr := r.addr, declaredLength := r.declaredLength,
                                         data := d ++ body.take (r.declaredLength.toNat - r.rxCount.toNat) }] ∧
        ∀ (id' : Config.Id) (addr' : Byte) (sn : Nibble) (body' : List Byte),
          exec (.cf id' addr' sn body') t = .next { t with results := t.results ++ [.err .sequenceError] })

/-! ## Flow control, unknown discriminators, and `PUSH` itself -/

/-- R105: a flow-control frame does nothing in any state and returns `None`, whatever else it holds. -/
def Obligations.FlowControlHasNoEffect : Prop :=
  ∀ (id : Config.Id) (addr : Byte) (low : Nibble) (body : List Byte) (s : State),
    exec (.fc id addr low body) s = .next { s with results := s.results ++ [.none] }

/-- R106, R134: a frame with an unknown discriminator raises `UnknownDiscriminator` in any state and changes nothing. -/
def Obligations.UnknownDiscriminatorIsRejected : Prop :=
  ∀ (id : Config.Id) (addr : Byte) (low6 : BitVec 6) (low7 : BitVec 7) (body : List Byte) (s : State),
    exec (.unk47 id addr low6 body) s = .next { s with results := s.results ++ [.err .unknownDiscriminator] } ∧
    exec (.unk8F id addr low7 body) s = .next { s with results := s.results ++ [.err .unknownDiscriminator] }

/-- R100: `PUSH` goes by byte 1 bits 7:4 alone. A frame without byte 1 raises `MalformedFrame` and changes nothing: the
spec's decision D6 (R101), which also lets a model refuse such a frame, and the model's choice (log entry 9). -/
def Obligations.PushGoesByTheDiscriminator : Prop :=
  ∀ (f : Frame) (s : State), f.IsFrame →
    (f.length < 2 → exec (.push f) s = .next { s with results := s.results ++ [.err .malformedFrame] }) ∧
    ∀ (addr b1 : Byte) (body : List Byte), f.data = addr :: b1 :: body →
      (b1.toNat / 16 = 0 → exec (.push f) s = exec (.sf f.id addr (BitVec.ofNat 4 (b1.toNat % 16)) body) s) ∧
      (b1.toNat / 16 = 1 → exec (.push f) s = exec (.ff f.id addr (BitVec.ofNat 4 (b1.toNat % 16)) body) s) ∧
      (b1.toNat / 16 = 2 → exec (.push f) s = exec (.cf f.id addr (BitVec.ofNat 4 (b1.toNat % 16)) body) s) ∧
      (b1.toNat / 16 = 3 → exec (.push f) s = .next { s with results := s.results ++ [.none] }) ∧
      (4 ≤ b1.toNat / 16 →
        exec (.push f) s = .next { s with results := s.results ++ [.err .unknownDiscriminator] })

/-- R64, R74: a decoder for `PUSH` written from the FRAME rows: a `PUSH` does what the class of its frame does. -/
def Obligations.PushRunsTheClassOfItsFrame : Prop :=
  ∀ (f : Frame) (i : Instr) (s : State), decodeFrame f = .ok i → exec (.push f) s = exec i s

/-- R27, R100: from every state that meets the invariant, `PUSH` of any frame value ends with a next state, in which only
the handler and the one new result differ; the result is `None`, a Message or an error. -/
def Obligations.PushCompletes : Prop :=
  ∀ (f : Frame) (s : State), f.IsFrame → s.Inv →
    ∃ (h : Handler) (x : Result),
      exec (.push f) s = .next { s with handler := h, results := s.results ++ [x] } ∧
      (x = .none ∨ (∃ m, x = .msg m) ∨ ∃ e, x = .err e)

/-- R102, R61, R62 on the bytes of the frame: `PUSH` of a legal single frame of its full length returns exactly the
bytes after byte 1. -/
def Obligations.PushOfAFullSingleFrame : Prop :=
  ∀ (id : Config.Id) (addr : Byte) (payload : List Byte) (s : State),
    1 ≤ payload.length → payload.length ≤ 6 →
    exec (.push { id := id, length := payload.length + 2,
                  data := addr :: BitVec.ofNat 8 payload.length :: payload }) s =
      .next { s with
        handler := .idle
        results := s.results ++ [.msg { id := id, addr := addr, declaredLength := BitVec.ofNat 12 payload.length,
                                        data := payload }] }

/-! ## The encoder -/

/-- R88, R87: `ENC` of at most 4095 payload bytes ends with the frame sequence and changes nothing else, in any state;
a longer payload is refused. -/
def Obligations.EncReturnsFramesAndTouchesNothing : Prop :=
  ∀ (id : Config.Id) (dest : Nat) (payload : List Byte) (s : State),
    (payload.length ≤ 4095 →
      exec (.enc id dest payload) s = .next { s with results := s.results ++ [.frames (encFrames id dest payload)] }) ∧
    (4095 < payload.length → exec (.enc id dest payload) s = .refused .payloadTooLong)

/-- R81, R85: fewer than 7 payload bytes, none included, give the one frame of R81. -/
def Obligations.EncOfAShortPayload : Prop :=
  ∀ (id : Config.Id) (dest : Nat) (payload : List Byte) (s : State), payload.length < 7 →
    exec (.enc id dest payload) s = .next { s with
      results := s.results ++ [.frames [
        { id := id, length := payload.length + 2,
          data := BitVec.ofNat 8 (dest % 256) :: BitVec.ofNat 8 payload.length :: payload }]] }

/-- R80, R82, R83, R84: 7 to 4095 payload bytes give a first frame with the 12-bit length and payload bytes 0 to 4, then
`ceil((n - 5) / 6)` consecutive frames, the `j`-th with sequence number `j mod 16` and the payload bytes from offset
`5 + 6 (j - 1)` on, at most 6 of them. -/
def Obligations.EncOfALongPayload : Prop :=
  ∀ (id : Config.Id) (dest : Nat) (payload : List Byte) (s : State), 7 ≤ payload.length → payload.length ≤ 4095 →
    exec (.enc id dest payload) s = .next { s with
      results := s.results ++ [.frames (
        { id := id, length := 8,
          data := BitVec.ofNat 8 (dest % 256) :: BitVec.ofNat 8 (16 + payload.length / 256)
                    :: BitVec.ofNat 8 (payload.length % 256) :: payload.take 5 }
        :: (List.range ((payload.length - 5 + 5) / 6)).map fun k =>
            { id := id, length := min 6 (payload.length - (5 + 6 * k)) + 2,
              data := BitVec.ofNat 8 (dest % 256) :: BitVec.ofNat 8 (32 + (k + 1) % 16)
                        :: (payload.drop (5 + 6 * k)).take 6 })] }

/-- R26, R64, R69: every frame the encoder emits has as many data bytes as its `length` says, at most 8, and is a single,
first or consecutive frame, never one of type 3 or above; all carry the message's `id` and the masked address. -/
def Obligations.EncEmitsFramesOfTypesZeroToTwo : Prop :=
  ∀ (id : Config.Id) (dest : Nat) (payload : List Byte), payload.length ≤ 4095 →
    ∀ f ∈ encFrames id dest payload,
      f.id = id ∧ f.data.length = f.length ∧ 2 ≤ f.length ∧ f.length ≤ 8 ∧
      ∃ (low : Nibble) (body : List Byte),
        decodeFrame f = .ok (.sf id (BitVec.ofNat 8 (dest % 256)) low body) ∨
        decodeFrame f = .ok (.ff id (BitVec.ofNat 8 (dest % 256)) low body) ∨
        decodeFrame f = .ok (.cf id (BitVec.ofNat 8 (dest % 256)) low body)

/-- R89: for 1 to 4095 payload bytes, the frames that `ENC` handed over, pushed in order into an Idle handler, give
`None` for every frame but the last and the message for the last, and leave the handler Idle. -/
def Obligations.EncodedMessagesComeBackWhole : Prop :=
  ∀ (id : Config.Id) (dest : Nat) (payload : List Byte) (s₀ t₀ s : State) (fs : List Frame) (rest : List HostInput),
    1 ≤ payload.length → payload.length ≤ 4095 →
    exec (.enc id dest payload) s₀ = .next t₀ → t₀.results = s₀.results ++ [.frames fs] →
    s.handler = .idle → s.pending = pushAll fs ++ rest →
    Host.Core.run Sys2Proof.core fs.length s =
      .next { s with
        pending := rest
        results := s.results ++ (List.replicate (fs.length - 1) .none ++
          [.msg { id := id, addr := BitVec.ofNat 8 (dest % 256),
                  declaredLength := BitVec.ofNat 12 payload.length, data := payload }]) }

/-! ## Control, reset and the host interface -/

/-- R120: `ABORT` leaves Idle from either state, with no value returned and nothing else changed. -/
def Obligations.AbortLeavesIdle : Prop :=
  ∀ s : State, exec .abort s = .next { s with handler := .idle, results := s.results ++ [.noValue] }

/-- R121: operation code 3 is refused, as an instruction and as a command, whatever stands on the operand lanes. -/
def Obligations.ReservedOperationIsRefused : Prop :=
  ∀ (s : State) (c : Command) (rest : List HostInput),
    exec .rsvdOp3 s = .refused .reservedOperation ∧
    (c.op = 3 → s.pending = .command c :: rest → step s = .refused .reservedOperation)

/-- R30, R150: the block right after its creation is Idle. That nothing is pending and nothing handed over is the
model's choice (log entries 3, 4 and 11). -/
def Obligations.ResetStateIsIdle : Prop :=
  State.reset.handler = .idle ∧ State.reset.pending = [] ∧ State.reset.results = []

/-- R150: a reset issued by the host leaves Idle from any state, and nothing else changes. That it is one more input
with the result "no value" is the model's choice (log entry 6). -/
def Obligations.ResetMayBeAppliedInAnyState : Prop :=
  ∀ (s : State) (rest : List HostInput), s.pending = .reset :: rest →
    step s = .next { handler := .idle, pending := rest, results := s.results ++ [.noValue] }

/-- A step runs the instruction that the oldest pending command decodes to, in the state without that command (R50). The
list of pending inputs is the model's choice (log entry 3). -/
def Obligations.StepRunsTheDecodedCommand : Prop :=
  ∀ (s : State) (c : Command) (i : Instr) (rest : List HostInput),
    s.pending = .command c :: rest → decode c = .ok i → step s = exec i { s with pending := rest }

/-- A step on a pushed frame runs the class its bytes decode to (R74, R100). -/
def Obligations.StepRunsTheClassOfAPushedFrame : Prop :=
  ∀ (s : State) (f : Frame) (i : Instr) (rest : List HostInput),
    s.pending = .command (pushCommand f) :: rest → decodeFrame f = .ok i →
    step s = exec i { s with pending := rest }

/-- The step after a table word is placed runs exactly the instruction the decoder reads from that word (log entry 12
says how the words are read). -/
def Obligations.StepRunsThePlacedWord : Prop :=
  ∀ (s : State) (nbits w : Nat) (i : Instr),
    decodeTableWord nbits w = some i → step (s.withFetchWord nbits w) = exec i s

/-- R70, R87: what cannot be presented is refused by name: a `PUSH` whose `length` is above 8 or is no count of its data
bytes, and an `ENC` of more than 4095 payload bytes. -/
def Obligations.StepRefusesWhatCannotBePresented : Prop :=
  ∀ (s : State) (c : Command) (rest : List HostInput), s.pending = .command c :: rest →
    (c.op = 0 → (8 < c.frame.length ∨ c.frame.data.length ≠ c.frame.length) → step s = .refused .notAFrame) ∧
    (c.op = 1 → 4095 < c.payload.length → step s = .refused .payloadTooLong)

/-- R138, R161: with nothing issued by the host nothing happens (log entry 5). -/
def Obligations.NothingHappensWithoutAHostOperation : Prop :=
  ∀ s : State, s.pending = [] → step s = .next s

/-! ## Rules over all instructions -/

/-- R27, R145: every operation that goes on hands over exactly one result and takes nothing from the pending inputs: a
frame sequence for `ENC`, no value for `ABORT`, and for the frame operations `None`, a Message or an error; a reset ends
with no value. -/
def Obligations.OneResultPerOperation : Prop :=
  (∀ (i : Instr) (s t : State), exec i s = .next t →
    t.pending = s.pending ∧
    ∃ x : Result, t.results = s.results ++ [x] ∧
      match i with
      | .enc id dest payload => x = .frames (encFrames id dest payload)
      | .abort => x = .noValue
      | _ => x = .none ∨ (∃ m, x = .msg m) ∨ ∃ e, x = .err e) ∧
  ∀ (s t : State) (rest : List HostInput), s.pending = .reset :: rest → step s = .next t →
    t.results = s.results ++ [.noValue]

/-- R137: after an error the handler is what it was before the operation. -/
def Obligations.ErrorsLeaveTheHandlerAsItWas : Prop :=
  ∀ (i : Instr) (s t : State) (e : ErrorKind), s.Inv → exec i s = .next t → t.results = s.results ++ [.err e] →
    t.handler = s.handler ∧ t.pending = s.pending

/-- R29: the only ways the handler changes. An instruction brings it to a new reassembly from Idle only if it is a first
frame, and from Receiving only if it is a first frame or a consecutive frame; it brings it to Idle only if it is `ABORT` or
returns a Message. A step changes it only by a reset, which leaves Idle, or by the instruction of the oldest pending
command. -/
def Obligations.OnlyTheseOperationsMoveTheHandler : Prop :=
  (∀ (i : Instr) (s t : State), exec i s = .next t →
    (∀ r, s.handler = .idle → t.handler = .receiving r →
      (∃ id addr hi body, operationOf i = .ff id addr hi body) ∧ t.results = s.results ++ [.none]) ∧
    (∀ r r', s.handler = .receiving r → t.handler = .receiving r' → r' ≠ r →
      ((∃ id addr hi body, operationOf i = .ff id addr hi body) ∧ t.results = s.results ++ [.none]) ∨
      (∃ id addr body, operationOf i = .cf id addr r.expSeq body)) ∧
    (∀ r, s.handler = .receiving r → t.handler = .idle →
      i = .abort ∨
      ((∃ m, t.results = s.results ++ [.msg m]) ∧
        ((∃ id addr dl body, operationOf i = .sf id addr dl body) ∨
         (∃ id addr body, operationOf i = .cf id addr r.expSeq body))))) ∧
  ∀ s t : State, step s = .next t → t.handler ≠ s.handler →
    (∃ rest, s.pending = .reset :: rest ∧ t.handler = .idle) ∨
    ∃ c rest i, s.pending = .command c :: rest ∧ decode c = .ok i ∧ exec i { s with pending := rest } = .next t

/-- R32, R33: an operation's effect is a function of the handler state and the operands: two states with the same handler
go to the same handler and hand over the same result, whatever was issued or handed over besides. -/
def Obligations.EffectsDependOnTheHandlerAlone : Prop :=
  ∀ (i : Instr) (s s' t : State), s'.handler = s.handler → exec i s = .next t →
    ∃ (t' : State) (x : Result), exec i s' = .next t' ∧ t'.handler = t.handler ∧
      t.results = s.results ++ [x] ∧ t'.results = s'.results ++ [x]

/-- R25: every step keeps the invariant, from every state that meets it. -/
def Obligations.StepKeepsTheInvariant : Prop :=
  ∀ s t : State, s.Inv → step s = .next t → t.Inv

/-- R25 holds of the state after reset. -/
def Obligations.ResetStateMeetsTheInvariant : Prop := State.reset.Inv

/-- The invariant says what it should: `rx_count` bytes are readable, no more than declared, and the buffer's memory is in
its canonical form (R23, R25, R41). -/
def Obligations.TheInvariantBoundsTheBuffer : Prop :=
  ∀ (s : State) (r : Reassembly), s.Inv → s.handler = .receiving r →
    (∃ d, memRead r.buf 0 r.rxCount.toNat = some d ∧ d.length = r.rxCount.toNat) ∧
    (∀ a, r.rxCount.toNat ≤ a → readByte r.buf a = none) ∧
    r.rxCount.toNat ≤ r.declaredLength.toNat ∧ Memory.wf r.buf = true

/-- From every state that meets the invariant no instruction ends in a fault. -/
def Obligations.NoFaultUnderTheInvariant : Prop :=
  ∀ (i : Instr) (s : State) (r : Fault), s.Inv → exec i s ≠ .fault r

/-! ## Encodings -/

/-- Every well-formed instruction decodes from its own code, with every operand at every value. -/
def Obligations.DecodeOfEncode : Prop :=
  ∀ i : Instr, i.wellFormed = true → decodeCode (encode i) = .ok i

/-- Every frame value with a byte 1 is the code of exactly the class instruction it decodes to, and that instruction is
well-formed (R64: the table is total). -/
def Obligations.EncodeOfDecodedFrame : Prop :=
  ∀ f : Frame, f.IsFrame → 2 ≤ f.length →
    ∃ i, decodeFrame f = .ok i ∧ i.wellFormed = true ∧ encode i = .frame f

/-- What the command decoder accepts is well-formed. -/
def Obligations.DecodedCommandsAreWellFormed : Prop :=
  ∀ (c : Command) (i : Instr), decode c = .ok i → i.wellFormed = true

/-- R74: the FRAME rows are disjoint and together cover all 256 values of byte 1. -/
def Obligations.FrameRowsPartitionByteOne : Prop :=
  ∀ b1 : Byte,
    (List.filter (fun row : Byte × Byte => rowSelects row.1 row.2 b1)
      [(0x00, 0xF0), (0x10, 0xF0), (0x20, 0xF0), (0x30, 0xF0), (0x40, 0xC0), (0x80, 0x80)]).length = 1

/-- The frames of Scenarios A and B, a flow-control frame, the first unknown discriminators, and the four operation
codes, decoded by hand from R62 to R66 and R72. -/
def Obligations.WordsFromTheSpecDecode : Prop :=
  decodeFrame { id := 0x123, length := 3, data := [0x10, 0x01, 0xAA] } = .ok (.sf 0x123 0x10 1 [0xAA]) ∧
  decodeFrame { id := 0x123, length := 8, data := [0x20, 0x10, 0x0A, 0xA0, 0xA1, 0xA2, 0xA3, 0xA4] } =
    .ok (.ff 0x123 0x20 0 [0x0A, 0xA0, 0xA1, 0xA2, 0xA3, 0xA4]) ∧
  decodeFrame { id := 0x123, length := 7, data := [0x20, 0x21, 0xA5, 0xA6, 0xA7, 0xA8, 0xA9] } =
    .ok (.cf 0x123 0x20 1 [0xA5, 0xA6, 0xA7, 0xA8, 0xA9]) ∧
  decodeFrame { id := 0x123, length := 4, data := [0x20, 0x30, 0x00, 0x00] } = .ok (.fc 0x123 0x20 0 [0, 0]) ∧
  decodeFrame { id := 0x123, length := 2, data := [0x20, 0x4F] } = .ok (.unk47 0x123 0x20 0x0F []) ∧
  decodeFrame { id := 0x123, length := 3, data := [0x20, 0xFF, 0x01] } = .ok (.unk8F 0x123 0x20 0x7F [1]) ∧
  decode (bareCommand 0) = .ok (.push emptyFrame) ∧ decode (bareCommand 1) = .ok (.enc 0 0 []) ∧
  decode (bareCommand 2) = .ok .abort ∧ decode (bareCommand 3) = .ok .rsvdOp3

/-- R130: the codes of the error kinds, and code 0 for the results that are no error. -/
def Obligations.ErrorCodes : Prop :=
  Result.code .none = 0 ∧ (∀ m, Result.code (.msg m) = 0) ∧
  Result.code (.err .invalidLength) = 1 ∧ Result.code (.err .sequenceError) = 2 ∧
  Result.code (.err .lengthMismatch) = 3 ∧ Result.code (.err .unknownDiscriminator) = 4 ∧
  Result.code (.err .malformedFrame) = 5
end

