-- ==== Sys2Proof/Laws/Bits.lean ====
section
/-! SUPPORT. What the bit-field helpers compute, as numbers, and that packing and splitting undo each other. -/

namespace Sys2Proof

@[simp] theorem highNibble_toNat (b : Byte) : (highNibble b).toNat = b.toNat / 16 := by
  have := b.isLt
  simp only [highNibble, BitVec.extractLsb'_toNat, Nat.shiftRight_eq_div_pow]
  omega

@[simp] theorem lowNibble_toNat (b : Byte) : (lowNibble b).toNat = b.toNat % 16 := by
  simp [lowNibble, BitVec.extractLsb'_toNat]

theorem append_toNat {n m : Nat} (x : BitVec n) (y : BitVec m) : (x ++ y).toNat = x.toNat * 2 ^ m + y.toNat := by
  rw [BitVec.toNat_append, Nat.shiftLeft_eq, Nat.mul_comm, ← Nat.two_pow_add_eq_or_of_lt y.isLt]

@[simp] theorem packNibbles_toNat (hi lo : Nibble) : (packNibbles hi lo).toNat = 16 * hi.toNat + lo.toNat := by
  rw [packNibbles, append_toNat]; omega

@[simp] theorem highNibble_pack (hi lo : Nibble) : highNibble (packNibbles hi lo) = hi := by
  have := lo.isLt
  apply BitVec.eq_of_toNat_eq
  simp only [highNibble_toNat, packNibbles_toNat]
  omega

@[simp] theorem lowNibble_pack (hi lo : Nibble) : lowNibble (packNibbles hi lo) = lo := by
  have := lo.isLt
  apply BitVec.eq_of_toNat_eq
  simp only [lowNibble_toNat, packNibbles_toNat]
  omega

theorem pack_split (b : Byte) : packNibbles (highNibble b) (lowNibble b) = b := by
  apply BitVec.eq_of_toNat_eq
  simp only [packNibbles_toNat, highNibble_toNat, lowNibble_toNat]
  omega

/-- The rows with mask `0xF0` test the discriminator (R64, R74). -/
theorem rowSelects_F0 (b1 : Byte) (k : Nibble) : rowSelects (packNibbles k 0) 0xF0 b1 = (highNibble b1 == k) := by
  have key : b1 &&& 0xF0 = packNibbles (highNibble b1) 0 := by
    apply BitVec.eq_of_toNat_eq
    have h := b1.isLt
    generalize hb : b1.toNat = n at h
    simp only [BitVec.toNat_and, packNibbles_toNat, highNibble_toNat, hb]
    clear hb b1
    interval_cases n <;> rfl
  rw [rowSelects, key, Bool.eq_iff_iff, beq_iff_eq, beq_iff_eq]
  exact ⟨fun h => by simpa using congrArg highNibble h, fun h => h ▸ rfl⟩

/-- `UNK_4_7` is selected by the discriminators 4 to 7 (R74). -/
theorem rowSelects_C0 (b1 : Byte) : rowSelects 0x40 0xC0 b1 = decide (b1.toNat / 64 = 1) := by
  have key : b1 &&& 0xC0 = (BitVec.ofNat 8 (b1.toNat / 64 * 64)) := by
    apply BitVec.eq_of_toNat_eq
    have h := b1.isLt
    generalize hb : b1.toNat = n at h
    simp only [BitVec.toNat_and, BitVec.toNat_ofNat, hb]
    clear hb b1
    interval_cases n <;> rfl
  have h := b1.isLt
  rw [rowSelects, key, Bool.eq_iff_iff, beq_iff_eq, decide_eq_true_eq, ← BitVec.toNat_inj]
  simp only [BitVec.ofNat_eq_ofNat, BitVec.toNat_ofNat]
  omega

/-- The class of a frame by its discriminator, as a number (R64). -/
theorem classify_eq (id : Config.Id) (addr b1 : Byte) (body : List Byte) :
    classify id addr b1 body =
      if b1.toNat / 16 = 0 then .sf id addr (lowNibble b1) body
      else if b1.toNat / 16 = 1 then .ff id addr (lowNibble b1) body
      else if b1.toNat / 16 = 2 then .cf id addr (lowNibble b1) body
      else if b1.toNat / 16 = 3 then .fc id addr (lowNibble b1) body
      else if b1.toNat / 16 < 8 then .unk47 id addr (b1.extractLsb' 0 6) body
      else .unk8F id addr (b1.extractLsb' 0 7) body := by
  have hn (k : Nibble) : (highNibble b1 == k) = decide (b1.toNat / 16 = k.toNat) := by
    rw [Bool.eq_iff_iff, beq_iff_eq, decide_eq_true_eq, ← BitVec.toNat_inj, highNibble_toNat]
  have h0 := (rowSelects_F0 b1 0).trans (hn 0)
  have h1 := (rowSelects_F0 b1 1).trans (hn 1)
  have h2 := (rowSelects_F0 b1 2).trans (hn 2)
  have h3 := (rowSelects_F0 b1 3).trans (hn 3)
  have h4 := rowSelects_C0 b1
  change rowSelects 0x00 0xF0 b1 = decide (b1.toNat / 16 = 0) at h0
  change rowSelects 0x10 0xF0 b1 = decide (b1.toNat / 16 = 1) at h1
  change rowSelects 0x20 0xF0 b1 = decide (b1.toNat / 16 = 2) at h2
  change rowSelects 0x30 0xF0 b1 = decide (b1.toNat / 16 = 3) at h3
  simp only [classify, h0, h1, h2, h3, h4, decide_eq_true_eq]
  have : b1.toNat / 64 = 1 ↔ 4 ≤ b1.toNat / 16 ∧ b1.toNat / 16 < 8 := by omega
  split_ifs <;> first | rfl | omega

namespace Machine

@[simp] theorem assembleLength_toNat (low : Nibble) (b : Byte) :
    (assembleLength low b).toNat = 256 * low.toNat + b.toNat := by
  have h1 := low.isLt
  have h2 := b.isLt
  simp only [assembleLength, BitVec.toNat_add, BitVec.toNat_shiftLeft, BitVec.toNat_setWidth, Nat.shiftLeft_eq]
  omega

@[simp] theorem lengthHigh_toNat (n : Len) : (lengthHigh n).toNat = n.toNat / 256 := by
  have := n.isLt
  simp only [lengthHigh, BitVec.extractLsb'_toNat, Nat.shiftRight_eq_div_pow]
  omega

@[simp] theorem lengthLow_toNat (n : Len) : (lengthLow n).toNat = n.toNat % 256 := by
  simp [lengthLow, BitVec.extractLsb'_toNat]

@[simp] theorem nextSeq_toNat (a : Nibble) : (nextSeq a).toNat = (a.toNat + 1) % 16 := by
  simp [nextSeq, BitVec.toNat_add]

theorem maskAddr_eq (dest : Nat) : maskAddr dest = BitVec.ofNat 8 (dest % 256) := by
  rw [maskAddr, show (0xFF : Nat) = 2 ^ 8 - 1 from rfl, Nat.and_two_pow_sub_one_eq_mod]

/-- R9 (e): the OR of a discriminator into a byte whose low nibble is free is an addition. -/
theorem or_eq_add (t m : Nat) (ht : t < 16) (hm : m < 16) :
    BitVec.ofNat 8 (16 * t) ||| BitVec.ofNat 8 m = BitVec.ofNat 8 (16 * t + m) := by
  interval_cases t <;> interval_cases m <;> rfl

@[simp] theorem dataSlice_two (body : List Byte) (k : Nat) : dataSlice body 2 (2 + k) = body.take k := by
  simp [dataSlice, slice]

theorem dataSlice_three (b : Byte) (payload : List Byte) (L : Nat) :
    dataSlice (b :: payload) 3 (min (L + 3) 8) = payload.take (min L 5) := by
  simp only [dataSlice, slice]
  rw [show min (L + 3) 8 - 2 = min L 5 + 1 by omega, List.take_succ_cons, List.drop_succ_cons, List.drop_zero]

end Machine

end Sys2Proof
end

