-- ==== Sys2Proof/Laws/Memory.lean ====
section
/-! SUPPORT. The laws of the reassembly buffer's memory: read after write, untouched addresses, the canonical form, and
what an append gives when the cells are exactly the addresses below the append's own. -/

namespace Sys2Proof.Machine

theorem readByte_writeByte (buf : List Host.Cell) (a x : Nat) (b : Byte) :
    readByte (writeByte buf a b) x = if x = a then some b else readByte buf x := by
  induction buf with
  | nil => simp only [readByte, writeByte, eq_comm]
  | cons c rest ih =>
    obtain ⟨k, v⟩ := c
    simp only [writeByte]
    by_cases h1 : a < k
    · simp only [if_pos h1, readByte, eq_comm]
    · rw [if_neg h1]
      by_cases h2 : a = k
      · subst h2
        simp only [if_true, readByte]
        by_cases h3 : a = x
        · simp [h3]
        · rw [if_neg h3, if_neg (Ne.symm h3), if_neg h3]
      · rw [if_neg h2]
        simp only [readByte, ih]
        by_cases h3 : k = x
        · rw [if_pos h3, if_neg (by omega), if_pos h3]
        · rw [if_neg h3, if_neg h3]

/-- Read after `MemWrite` (R8): the written range reads as the bytes written, every other address as before. -/
theorem readByte_memWrite (buf : List Host.Cell) (a x : Nat) (bs : List Byte) :
    readByte (memWrite buf a bs) x = if a ≤ x ∧ x < a + bs.length then bs[x - a]? else readByte buf x := by
  induction bs generalizing buf a with
  | nil => simp only [memWrite, List.length_nil]; split <;> [omega; rfl]
  | cons b bs ih =>
    simp only [memWrite, ih, readByte_writeByte, List.length_cons]
    by_cases hx : x = a
    · subst hx; simp
    · by_cases hin : a + 1 ≤ x ∧ x < a + 1 + bs.length
      · rw [if_pos hin, if_pos (by omega)]
        obtain ⟨m, rfl⟩ : ∃ m, x = a + 1 + m := ⟨x - (a + 1), by omega⟩
        rw [show a + 1 + m - (a + 1) = m by omega, show a + 1 + m - a = m + 1 by omega]; rfl
      · rw [if_neg hin, if_neg hx, if_neg (by omega)]

/-- The cells of `bs` at ascending addresses from `a`. -/
def cellsFrom (a : Nat) : List Byte → List Host.Cell
  | [] => []
  | b :: bs => (a, b) :: cellsFrom (a + 1) bs

@[simp] theorem cellsFrom_keys (a : Nat) (bs : List Byte) :
    (cellsFrom a bs).map Prod.fst = List.range' a bs.length := by
  induction bs generalizing a with
  | nil => rfl
  | cons b bs ih => simp [cellsFrom, ih, List.range'_succ]

@[simp] theorem cellsFrom_bytes (a : Nat) (bs : List Byte) : (cellsFrom a bs).map Prod.snd = bs := by
  induction bs generalizing a with
  | nil => rfl
  | cons b bs ih => simp [cellsFrom, ih]

theorem writeByte_end {buf : List Host.Cell} {a : Nat} (b : Byte) (h : ∀ c ∈ buf, c.1 < a) :
    writeByte buf a b = buf ++ [(a, b)] := by
  induction buf with
  | nil => rfl
  | cons c rest ih =>
    have hc : c.1 < a := h c (by simp)
    simp only [writeByte, if_neg (show ¬ a < c.1 by omega), if_neg (show ¬ a = c.1 by omega), List.cons_append]
    rw [ih fun d hd => h d (by simp [hd])]

/-- A write above everything the buffer holds is an append. -/
theorem memWrite_end {buf : List Host.Cell} {a : Nat} (bs : List Byte) (h : ∀ c ∈ buf, c.1 < a) :
    memWrite buf a bs = buf ++ cellsFrom a bs := by
  induction bs generalizing buf a with
  | nil => simp [memWrite, cellsFrom]
  | cons b bs ih =>
    rw [memWrite, writeByte_end b h, ih]
    · simp [cellsFrom]
    · intro c hc
      rcases List.mem_append.mp hc with hc | hc
      · exact Nat.lt_succ_of_lt (h c hc)
      · simp only [List.mem_singleton] at hc; simp [hc]

theorem keys_lt {buf : List Host.Cell} {n : Nat} (h : buf.map Prod.fst = List.range n) :
    ∀ c ∈ buf, c.1 < n := fun _ hc =>
  List.mem_range.mp (h ▸ List.mem_map_of_mem (f := Prod.fst) hc)

/-- R41: an append at `rx_count` to a buffer that holds exactly the addresses below it. -/
theorem memWrite_append {buf : List Host.Cell} {n : Nat} (bs : List Byte)
    (h : buf.map Prod.fst = List.range n) : memWrite buf n bs = buf ++ cellsFrom n bs :=
  memWrite_end bs (keys_lt h)

theorem memWrite_append_keys {buf : List Host.Cell} {n : Nat} (bs : List Byte)
    (h : buf.map Prod.fst = List.range n) :
    (memWrite buf n bs).map Prod.fst = List.range (n + bs.length) := by
  rw [memWrite_append bs h, List.map_append, h, cellsFrom_keys, List.range_add, List.range'_eq_map_range]

@[simp] theorem memWrite_nil_keys (bs : List Byte) : (memWrite [] 0 bs).map Prod.fst = List.range bs.length := by
  simpa using memWrite_append_keys (buf := []) (n := 0) bs rfl

@[simp] theorem memWrite_nil_bytes (bs : List Byte) : (memWrite [] 0 bs).map Prod.snd = bs := by
  simp [memWrite_append (buf := []) (n := 0) bs rfl]

theorem memRead_skip {c : Host.Cell} {buf : List Host.Cell} {a : Nat} (n : Nat) (h : c.1 < a) :
    memRead (c :: buf) a n = memRead buf a n := by
  induction n generalizing a with
  | zero => rfl
  | succ n ih => simp only [memRead, readByte, if_neg (show ¬ c.1 = a by omega), ih (Nat.lt_succ_of_lt h)]

theorem memRead_range' {buf : List Host.Cell} {a n : Nat} (h : buf.map Prod.fst = List.range' a n) :
    memRead buf a n = some (buf.map Prod.snd) := by
  induction n generalizing buf a with
  | zero => simp only [List.range'_zero, List.map_eq_nil_iff] at h; simp [h, memRead]
  | succ n ih =>
    match buf, h with
    | c :: rest, h =>
      simp only [List.range'_succ, List.map_cons, List.cons.injEq] at h
      obtain ⟨h1, h2⟩ := h
      simp [memRead, readByte, h1, memRead_skip n (show c.1 < a + 1 by omega), ih h2]

/-- `MemRead(0, n)` of a buffer that holds exactly the addresses 0 to `n - 1` is all its bytes (R41). -/
theorem memRead_all {buf : List Host.Cell} {n : Nat} (h : buf.map Prod.fst = List.range n) :
    memRead buf 0 n = some (buf.map Prod.snd) :=
  memRead_range' (by rw [h, List.range_eq_range'])

/-- After reset no buffer exists, and a new one starts empty, in canonical form. -/
@[simp] theorem Memory.wf_nil : Memory.wf [] = true := rfl

theorem reset_memory_wf (r : Reassembly) (h : State.reset.handler = .receiving r) : Memory.wf r.buf = true := by
  cases h

theorem Memory.wfFrom_mono {lo lo' : Nat} {buf : List Host.Cell} (h : Memory.wfFrom lo buf = true) (hl : lo' ≤ lo) :
    Memory.wfFrom lo' buf = true := by
  cases buf with
  | nil => rfl
  | cons c rest =>
    simp only [Memory.wfFrom, Bool.and_eq_true, decide_eq_true_eq] at h ⊢
    exact ⟨⟨hl.trans h.1.1, h.1.2⟩, h.2⟩

theorem Memory.wfFrom_writeByte {lo a : Nat} {buf : List Host.Cell} (b : Byte)
    (h : Memory.wfFrom lo buf = true) (hl : lo ≤ a) (ha : a < Config.bufSize) :
    Memory.wfFrom lo (writeByte buf a b) = true := by
  induction buf generalizing lo with
  | nil => simp [writeByte, Memory.wfFrom, hl, ha]
  | cons c rest ih =>
    simp only [Memory.wfFrom, Bool.and_eq_true, decide_eq_true_eq] at h
    simp only [writeByte]
    split
    · simp only [Memory.wfFrom, Bool.and_eq_true, decide_eq_true_eq]; exact ⟨⟨hl, ha⟩, ⟨by omega, h.1.2⟩, h.2⟩
    · split
      · subst_vars; simp only [Memory.wfFrom, Bool.and_eq_true, decide_eq_true_eq]; exact ⟨⟨hl, ha⟩, h.2⟩
      · simp only [Memory.wfFrom, Bool.and_eq_true, decide_eq_true_eq]; exact ⟨h.1, ih h.2 (by omega)⟩

/-- A write within the buffer keeps the canonical form. -/
theorem Memory.wf_memWrite {a : Nat} {buf : List Host.Cell} (bs : List Byte) (h : Memory.wf buf = true)
    (ha : a + bs.length ≤ Config.bufSize) : Memory.wf (memWrite buf a bs) = true := by
  induction bs generalizing buf a with
  | nil => exact h
  | cons b bs ih =>
    simp only [List.length_cons] at ha
    exact ih (Memory.wfFrom_writeByte b h (Nat.zero_le _) (by omega)) (by omega)

theorem Memory.wfFrom_range' {buf : List Host.Cell} {a n : Nat} (h : buf.map Prod.fst = List.range' a n)
    (hn : a + n ≤ Config.bufSize) : Memory.wfFrom a buf = true := by
  induction n generalizing buf a with
  | zero => simp only [List.range'_zero, List.map_eq_nil_iff] at h; simp [h, Memory.wfFrom]
  | succ n ih =>
    match buf, h with
    | c :: rest, h =>
      simp only [List.range'_succ, List.map_cons, List.cons.injEq] at h
      obtain ⟨h1, h2⟩ := h
      have := ih h2 (by omega)
      simp only [Memory.wfFrom, Bool.and_eq_true, decide_eq_true_eq, h1]
      exact ⟨⟨Nat.le_refl a, by omega⟩, this⟩

/-- A buffer that holds exactly the addresses 0 to `n - 1` is in canonical form. -/
theorem Memory.wf_of_keys {buf : List Host.Cell} {n : Nat} (h : buf.map Prod.fst = List.range n)
    (hn : n ≤ Config.bufSize) : Memory.wf buf = true :=
  Memory.wfFrom_range' (by rw [h, List.range_eq_range']) (by omega)

end Sys2Proof.Machine
end

