-- ==== Sys2Proof/Laws/State.lean ====
section
/-! SUPPORT. What each update of the state leaves in each field; one lemma per field per update. -/

namespace Sys2Proof.Machine

variable (s : State) (h : Handler) (r : Result)

@[simp] theorem setHandler_handler : (setHandler h s).handler = h := rfl
@[simp] theorem setHandler_pending : (setHandler h s).pending = s.pending := rfl
@[simp] theorem setHandler_results : (setHandler h s).results = s.results := rfl

@[simp] theorem deliver_handler : (deliver r s).handler = s.handler := rfl
@[simp] theorem deliver_pending : (deliver r s).pending = s.pending := rfl
@[simp] theorem deliver_results : (deliver r s).results = s.results ++ [r] := rfl

@[simp] theorem clearHandler_handler : (clearHandler s).handler = .idle := rfl
@[simp] theorem clearHandler_pending : (clearHandler s).pending = s.pending := rfl
@[simp] theorem clearHandler_results : (clearHandler s).results = s.results ++ [.noValue] := rfl

@[simp] theorem issueFirst_handler (c : Code) : (issueFirst c s).handler = s.handler := rfl
@[simp] theorem issueFirst_pending (c : Code) :
    (issueFirst c s).pending = .command (commandOf c) :: s.pending := rfl
@[simp] theorem issueFirst_results (c : Code) : (issueFirst c s).results = s.results := rfl

@[simp] theorem withFetchWord_handler (nbits w : Nat) : (s.withFetchWord nbits w).handler = s.handler := rfl
@[simp] theorem withFetchWord_results (nbits w : Nat) : (s.withFetchWord nbits w).results = s.results := rfl
@[simp] theorem withFetchWord_pending (nbits w : Nat) :
    (s.withFetchWord nbits w).pending = .command (commandOf (tableCode nbits w)) :: s.pending := rfl

section Reassembly

variable (q : Reassembly) (chunk : List Byte) (id : Config.Id) (addr : Byte) (declared : Len)

@[simp] theorem startReassembly_id : (startReassembly id addr declared chunk).id = id := rfl
@[simp] theorem startReassembly_addr : (startReassembly id addr declared chunk).addr = addr := rfl
@[simp] theorem startReassembly_declaredLength :
    (startReassembly id addr declared chunk).declaredLength = declared := rfl
@[simp] theorem startReassembly_buf : (startReassembly id addr declared chunk).buf = memWrite [] 0 chunk := rfl
@[simp] theorem startReassembly_rxCount :
    (startReassembly id addr declared chunk).rxCount = BitVec.ofNat 12 chunk.length := rfl
@[simp] theorem startReassembly_expSeq : (startReassembly id addr declared chunk).expSeq = 1 := rfl

@[simp] theorem appendChunk_id : (appendChunk q chunk).id = q.id := rfl
@[simp] theorem appendChunk_addr : (appendChunk q chunk).addr = q.addr := rfl
@[simp] theorem appendChunk_declaredLength : (appendChunk q chunk).declaredLength = q.declaredLength := rfl
@[simp] theorem appendChunk_buf : (appendChunk q chunk).buf = memWrite q.buf q.rxCount.toNat chunk := rfl
@[simp] theorem appendChunk_rxCount :
    (appendChunk q chunk).rxCount = BitVec.ofNat 12 (q.rxCount.toNat + chunk.length) := rfl
@[simp] theorem appendChunk_expSeq : (appendChunk q chunk).expSeq = q.expSeq := rfl

@[simp] theorem advanceSeq_id : (advanceSeq q).id = q.id := rfl
@[simp] theorem advanceSeq_addr : (advanceSeq q).addr = q.addr := rfl
@[simp] theorem advanceSeq_declaredLength : (advanceSeq q).declaredLength = q.declaredLength := rfl
@[simp] theorem advanceSeq_buf : (advanceSeq q).buf = q.buf := rfl
@[simp] theorem advanceSeq_rxCount : (advanceSeq q).rxCount = q.rxCount := rfl
@[simp] theorem advanceSeq_expSeq : (advanceSeq q).expSeq = q.expSeq + 1 := rfl

end Reassembly

end Sys2Proof.Machine
end

