-- ==== Sys2Proof/Laws/Ops.lean ====
section
/-! SUPPORT. What each shared operation of the machine can do, said once: the provers cite these instead of unfolding the
meanings. -/

namespace Sys2Proof.Machine

variable {s t : State}

theorem raise_next {e : ErrorKind} : raise e s = .next t ↔ t = { s with results := s.results ++ [.err e] } :=
  ⟨fun h => (Host.Outcome.next.inj h).symm, fun h => h ▸ rfl⟩

theorem returnNone_next : returnNone s = .next t ↔ t = { s with results := s.results ++ [.none] } :=
  ⟨fun h => (Host.Outcome.next.inj h).symm, fun h => h ▸ rfl⟩

theorem returnMsg_next {m : Message} :
    returnMsg m s = .next t ↔ t = { s with handler := .idle, results := s.results ++ [.msg m] } :=
  ⟨fun h => (Host.Outcome.next.inj h).symm, fun h => h ▸ rfl⟩

theorem singleLengthLegal_iff (dl : Nibble) : singleLengthLegal dl = true ↔ 1 ≤ dl.toNat ∧ dl.toNat ≤ 6 := by
  simp [singleLengthLegal, sfMax]; omega

/-! ### The receiving registers -/

/-- The payload received so far, under the invariant (R23, R41). -/
theorem Reassembly.Inv.read {r : Reassembly} (h : r.Inv) :
    memRead r.buf 0 r.rxCount.toNat = some (r.buf.map Prod.snd) :=
  memRead_all h.buffered

theorem Reassembly.Inv.bytes_length {r : Reassembly} (h : r.Inv) : (r.buf.map Prod.snd).length = r.rxCount.toNat := by
  have := congrArg List.length h.buffered
  simpa using this

theorem readByte_eq_none {buf : List Host.Cell} {n a : Nat} (h : buf.map Prod.fst = List.range n) (ha : n ≤ a) :
    readByte buf a = none := by
  have hk := keys_lt h
  clear h
  induction buf with
  | nil => rfl
  | cons c rest ih =>
    have := hk c (by simp)
    simp only [readByte, if_neg (show ¬ c.1 = a by omega)]
    exact ih fun d hd => hk d (by simp [hd])

/-- R109: an append of a chunk cut to what remains never passes the greater of the two counts, so `rx_count` does not
wrap, in any state whatever. -/
theorem appendChunk_rxCount_toNat (r : Reassembly) {chunk : List Byte} (h : chunk.length ≤ remaining r) :
    (appendChunk r chunk).rxCount.toNat = r.rxCount.toNat + chunk.length := by
  have h1 := r.rxCount.isLt
  have h2 := r.declaredLength.isLt
  unfold remaining at h
  simp only [appendChunk_rxCount, BitVec.toNat_ofNat]
  omega

/-- The buffer after an append holds the old bytes and the chunk (R41). -/
theorem appendChunk_buffered {r : Reassembly} {chunk : List Byte} (hb : r.buf.map Prod.fst = List.range r.rxCount.toNat)
    (h : chunk.length ≤ remaining r) :
    (appendChunk r chunk).buf.map Prod.fst = List.range (appendChunk r chunk).rxCount.toNat ∧
    (appendChunk r chunk).buf.map Prod.snd = r.buf.map Prod.snd ++ chunk := by
  rw [appendChunk_rxCount_toNat r h, appendChunk_buf]
  exact ⟨memWrite_append_keys chunk hb, by rw [memWrite_append chunk hb]; simp⟩

/-- The registers a first frame leaves meet the invariant if its chunk is no longer than 5 bytes and than it declares. -/
theorem startReassembly_inv (id : Config.Id) (addr : Byte) (L : Len) {chunk : List Byte}
    (h : chunk.length ≤ min L.toNat 5) : (startReassembly id addr L chunk).Inv := by
  have hc : (startReassembly id addr L chunk).rxCount.toNat = chunk.length := by
    simp only [startReassembly_rxCount, BitVec.toNat_ofNat]; omega
  refine ⟨by rw [hc, startReassembly_buf, memWrite_nil_keys], by rw [hc, startReassembly_declaredLength]; omega,
    fun he => ⟨?_, rfl⟩⟩
  have := congrArg BitVec.toNat he
  rw [hc, startReassembly_declaredLength] at this
  rw [startReassembly_declaredLength]
  omega

/-- The chunk a consecutive frame appends (R104). -/
def cfChunkOf (r : Reassembly) (body : List Byte) : List Byte := body.take (min (remaining r) 6)

theorem cfChunkOf_length_le (r : Reassembly) (body : List Byte) : (cfChunkOf r body).length ≤ remaining r := by
  rw [cfChunkOf, List.length_take]; omega

/-- What the end of `PushCF` can do (R104), guards included. -/
theorem finishConsecutive_cases (r : Reassembly) (s : State) :
    (r.rxCount = r.declaredLength ∧ (∃ data, memRead r.buf 0 r.rxCount.toNat = some data ∧
      finishConsecutive r s = .next { s with
        handler := .idle
        results := s.results ++ [.msg { id := r.id, addr := r.addr, declaredLength := r.declaredLength,
                                        data := data }] })) ∨
    (r.rxCount = r.declaredLength ∧ memRead r.buf 0 r.rxCount.toNat = none ∧
      finishConsecutive r s = .fault .bufferByteHasNoValue) ∨
    (r.declaredLength.toNat < r.rxCount.toNat ∧ finishConsecutive r s =
      .next { s with handler := .receiving r, results := s.results ++ [.err .lengthMismatch] }) ∨
    (r.rxCount.toNat < r.declaredLength.toNat ∧ finishConsecutive r s =
      .next { s with handler := .receiving (advanceSeq r), results := s.results ++ [.none] }) := by
  unfold finishConsecutive
  by_cases hc : r.rxCount = r.declaredLength
  · simp only [isComplete, hc, beq_self_eq_true, if_true, true_and]
    cases hm : memRead r.buf 0 r.declaredLength.toNat with
    | none => exact .inr (.inl ⟨rfl, rfl⟩)
    | some data => exact .inl ⟨data, rfl, rfl⟩
  · have hc' : (r.rxCount == r.declaredLength) = false := by simpa using hc
    simp only [isComplete, hc']
    have hne : r.rxCount.toNat ≠ r.declaredLength.toNat := fun h => hc (BitVec.eq_of_toNat_eq h)
    by_cases ho : r.declaredLength.toNat < r.rxCount.toNat
    · exact .inr (.inr (.inl ⟨ho, by simp [overruns, ho, raise, setHandler, deliver]⟩))
    · exact .inr (.inr (.inr ⟨by omega, by simp [overruns, ho, returnNone, setHandler, deliver]⟩))

end Sys2Proof.Machine
end

