-- ==== Sys2Proof/Laws/PerInstr.lean ====
section
/-! SUPPORT. Per instruction: the code the encoder gives it belongs to the instruction's own row of
spec/opcode_table.json (R74), whatever its operands. -/

namespace Sys2Proof.Laws.TableRow

/-- A row of the table: a HOSTOP row's code, or a FRAME row's `match` and `mask`. -/
inductive Row where
  | hostop (op : OpCode)
  | frame (pattern mask : Byte)
deriving DecidableEq, Repr

/-- The row of spec/opcode_table.json that an instruction stands for. -/
def rowOf : Instr → Row
  | .sf _ _ _ _ => .frame 0x00 0xF0
  | .ff _ _ _ _ => .frame 0x10 0xF0
  | .cf _ _ _ _ => .frame 0x20 0xF0
  | .fc _ _ _ _ => .frame 0x30 0xF0
  | .unk47 _ _ _ _ => .frame 0x40 0xC0
  | .unk8F _ _ _ _ => .frame 0x80 0x80
  | .push _ => .hostop 0
  | .enc _ _ _ => .hostop 1
  | .abort => .hostop 2
  | .rsvdOp3 => .hostop 3

/-- The row selects the code (R74). -/
def selects : Row → Code → Bool
  | .hostop op, .command c => c.op == op
  | .frame pattern mask, .frame f =>
    match f.data with
    | _ :: b1 :: _ => rowSelects pattern mask b1
    | _ => false
  | _, _ => false

/-- The instruction's code is selected by the instruction's row. -/
def Statement (i : Instr) : Prop := selects (rowOf i) (encode i) = true

theorem rowSelects_pack (k lo : Nibble) : rowSelects (packNibbles k 0) 0xF0 (packNibbles k lo) = true := by
  rw [rowSelects_F0, highNibble_pack, beq_self_eq_true]

theorem sf (id : Config.Id) (addr : Byte) (dl : Nibble) (body : List Byte) : Statement (.sf id addr dl body) :=
  rowSelects_pack 0 dl

theorem ff (id : Config.Id) (addr : Byte) (hi : Nibble) (body : List Byte) : Statement (.ff id addr hi body) :=
  rowSelects_pack 1 hi

theorem cf (id : Config.Id) (addr : Byte) (sn : Nibble) (body : List Byte) : Statement (.cf id addr sn body) :=
  rowSelects_pack 2 sn

theorem fc (id : Config.Id) (addr : Byte) (low : Nibble) (body : List Byte) : Statement (.fc id addr low body) :=
  rowSelects_pack 3 low

theorem unk47 (id : Config.Id) (addr : Byte) (low : BitVec 6) (body : List Byte) :
    Statement (.unk47 id addr low body) := by
  have := low.isLt
  show rowSelects 0x40 0xC0 ((1 : BitVec 2) ++ low) = true
  rw [rowSelects_C0, decide_eq_true_eq, append_toNat, show (1 : BitVec 2).toNat = 1 from rfl]
  omega

theorem unk8F (id : Config.Id) (addr : Byte) (low : BitVec 7) (body : List Byte) :
    Statement (.unk8F id addr low body) := by
  show rowSelects 0x80 0x80 ((1 : BitVec 1) ++ low) = true
  revert low
  decide

theorem push (f : Frame) : Statement (.push f) := rfl

theorem enc (id : Config.Id) (dest : Nat) (payload : List Byte) : Statement (.enc id dest payload) := rfl

theorem abort : Statement .abort := rfl

theorem rsvdOp3 : Statement .rsvdOp3 := rfl

end Sys2Proof.Laws.TableRow
end

