-- ==== Sys2Proof/Laws/Run.lean ====
section
/-! SUPPORT. A run of a machine, one step at a time, and of this model. -/

namespace Sys2Proof.Machine

section General

variable (M : Host.Core) (k : Nat) {s t : M.State}

theorem coreRun_of_next (h : M.step s = .next t) : M.run (k + 1) s = M.run k t := by rw [Host.Core.run, h]

theorem coreRun_of_fault {e : M.Fault} (h : M.step s = .fault e) : M.run (k + 1) s = .fault e := by
  rw [Host.Core.run, h]

theorem coreRun_of_refused {e : M.Refusal} (h : M.step s = .refused e) : M.run (k + 1) s = .refused e := by
  rw [Host.Core.run, h]

end General

variable (k : Nat) {s t : State}

theorem run_zero : Host.Core.run Sys2Proof.core 0 s = .next s := rfl

theorem run_of_next (h : step s = .next t) :
    Host.Core.run Sys2Proof.core (k + 1) s = Host.Core.run Sys2Proof.core k t :=
  coreRun_of_next Sys2Proof.core k h

theorem run_of_fault {e : Fault} (h : step s = .fault e) : Host.Core.run Sys2Proof.core (k + 1) s = .fault e :=
  coreRun_of_fault Sys2Proof.core k h

theorem run_of_refused {e : Refusal} (h : step s = .refused e) :
    Host.Core.run Sys2Proof.core (k + 1) s = .refused e :=
  coreRun_of_refused Sys2Proof.core k h

end Sys2Proof.Machine
end

