-- ==== Sys2Proof/Tests/Slice0.lean ====
section
/-! SUPPORT. Tests: ill-formed terms that WellFormed refuses, words written out from spec/30_encoding.md, the vectors of
spec/95_test_vectors.md (at most two an instruction, one step each), and a witness for every hypothesis of a statement. -/

namespace Sys2Proof.Tests

open Sys2Proof.Machine

/-! ### Ill-formed terms -/

theorem test_wf_body_of_seven :
    [Instr.sf 0 0 1 (List.replicate 7 0), .ff 0 0 1 (List.replicate 7 0), .cf 0 0 1 (List.replicate 7 0),
     .fc 0 0 1 (List.replicate 7 0), .unk47 0 0 1 (List.replicate 7 0), .unk8F 0 0 1 (List.replicate 7 0)].map
      Instr.wellFormed = List.replicate 6 false := by decide

theorem test_wf_push_of_nine_bytes :
    (Instr.push { id := 0, length := 9, data := List.replicate 9 0 }).wellFormed = false := by decide

theorem test_wf_push_with_wrong_length : (Instr.push { id := 0, length := 3, data := [0, 1] }).wellFormed = false := by
  decide

theorem test_wf_enc_of_4096_bytes : (Instr.enc 0 0 (List.replicate 4096 0)).wellFormed = false := by
  show decide ((List.replicate 4096 (0 : Byte)).length ≤ 4095) = false
  rw [List.length_replicate]
  decide

theorem test_wf_accepts :
    [Instr.sf 0 0 0 (List.replicate 6 0), .push { id := 0, length := 8, data := List.replicate 8 0 }, .enc 0 0 [],
     .abort, .rsvdOp3].map Instr.wellFormed = List.replicate 5 true := by decide

/-! ### Words written out from R62 to R66 and R72, byte by byte -/

theorem test_decode_sf : decodeFrame { id := 7, length := 3, data := [0b00010000, 0b00000001, 0b10101010] } =
    .ok (.sf 7 0x10 1 [0xAA]) := by decide

/-- R42: length 0x123 is sent as byte 1 = 0x11, byte 2 = 0x23. -/
theorem test_decode_ff : decodeFrame { id := 7, length := 4, data := [0xFE, 0b00010001, 0b00100011, 0x55] } =
    .ok (.ff 7 0xFE 1 [0x23, 0x55]) := by decide

theorem test_decode_cf : decodeFrame { id := 7, length := 3, data := [0x20, 0b00101111, 0xA5] } =
    .ok (.cf 7 0x20 15 [0xA5]) := by decide

theorem test_decode_fc : decodeFrame { id := 7, length := 2, data := [0x20, 0b00110101] } = .ok (.fc 7 0x20 5 []) := by
  decide

theorem test_decode_unk47 : decodeFrame { id := 7, length := 2, data := [0x20, 0b01111010] } =
    .ok (.unk47 7 0x20 0b111010 []) := by decide

theorem test_decode_unk8F : decodeFrame { id := 7, length := 2, data := [0x20, 0b10000101] } =
    .ok (.unk8F 7 0x20 0b0000101 []) := by decide

theorem test_decode_push :
    decode { op := 0b00, frame := { id := 7, length := 1, data := [0x20] }, id := 1, dest := 2, payload := [3] } =
    .ok (.push { id := 7, length := 1, data := [0x20] }) := by decide

theorem test_decode_enc :
    decode { op := 0b01, frame := { id := 7, length := 9, data := [] }, id := 1, dest := 2, payload := [3] } =
    .ok (.enc 1 2 [3]) := by decide

theorem test_decode_abort : decode (bareCommand 0b10) = .ok .abort := by decide

theorem test_decode_rsvdOp3 : decode (bareCommand 0b11) = .ok .rsvdOp3 := by decide

theorem test_decode_short_frame : decodeFrame { id := 7, length := 1, data := [0x20] } =
    .ok (.push { id := 7, length := 1, data := [0x20] }) := by decide

theorem test_decode_no_frame : decodeFrame { id := 7, length := 2, data := [0x20] } = .error .notAFrame := by decide

/-- The table's own words: `match` of the rows FF, CF, FC, UNK_4_7, UNK_8_F, and the four operation codes. -/
theorem test_table_words :
    [decodeTableWord 8 0x10, decodeTableWord 8 0x20, decodeTableWord 24 0x003000, decodeTableWord 8 0x40,
     decodeTableWord 8 0x80, decodeTableWord 24 0, decodeTableWord 8 1, decodeTableWord 8 2, decodeTableWord 8 3] =
    [some (.ff 0 0 0 (List.replicate 6 0)), some (.cf 0 0 0 (List.replicate 6 0)),
     some (.fc 0 0 0 (List.replicate 6 0)), some (.unk47 0 0 0 (List.replicate 6 0)),
     some (.unk8F 0 0 0 (List.replicate 6 0)), some (.sf 0 0 0 (List.replicate 6 0)), some (.enc 0 0 []), some .abort,
     some .rsvdOp3] := by decide

/-! ### One step each, from spec/95_test_vectors.md -/

/-- The handler and the results after an outcome that goes on. -/
def seen : Host.Outcome State Fault Refusal → Option (Handler × List Result)
  | .next s => some (s.handler, s.results)
  | _ => none

/-- `Rcv{0x123, addr, L, rx, exp, [bytes]}`, the notation of spec/95_test_vectors.md. -/
def rcv (addr : Byte) (declared rx : Len) (exp : Nibble) (bytes : List Byte) : Handler :=
  .receiving { id := 0x123, addr := addr, declaredLength := declared, buf := memWrite [] 0 bytes, rxCount := rx,
               expSeq := exp }

/-- The state with that handler and nothing pending or handed over. -/
def at' (h : Handler) : State := { handler := h, pending := [], results := [] }

/-- A frame with `id` 0x123 whose `length` is the number of bytes listed. -/
def frm (data : List Byte) : Frame := frameOf 0x123 data

/-- `RcvX` of spec/95_test_vectors.md 2.5. -/
def rcvX : Handler := rcv 0x20 8 5 1 [1, 2, 3, 4, 5]

/-- S-A. -/
theorem test_sf_scenario_A : seen (exec (.sf 0x123 0x10 1 [0xAA]) (at' .idle)) =
    some (.idle, [.msg { id := 0x123, addr := 0x10, declaredLength := 1, data := [0xAA] }]) := by decide

/-- D-SF16, a short frame; D-SF20 is `test_push_rejected_single_frame`. -/
theorem test_sf_short : seen (exec (.sf 0x123 0x20 6 [1, 2]) (at' .idle)) =
    some (.idle, [.msg { id := 0x123, addr := 0x20, declaredLength := 6, data := [1, 2] }]) := by decide

/-- D-FF11, a silent restart. -/
theorem test_ff_restart : seen (exec (.ff 0x123 0x30 0 [8, 0xC0, 0xC1, 0xC2, 0xC3, 0xC4])
    (at' (rcv 0x20 20 11 2 [1, 2, 3, 4, 5, 6, 7, 8, 9, 10, 11]))) =
    some (rcv 0x30 8 5 1 [0xC0, 0xC1, 0xC2, 0xC3, 0xC4], [.none]) := by decide

/-- D-FF3 and D-FF6: the nibble's place, and a length below 5. -/
theorem test_ff_lengths :
    seen (exec (.ff 0x123 0xFE 1 [0x23, 0, 0, 0, 0, 0]) (at' .idle)) = some (rcv 0xFE 291 5 1 [0, 0, 0, 0, 0], [.none]) ∧
    seen (exec (.ff 0x123 0x20 0 [3, 0xD0, 0xD1, 0xD2, 0xD3, 0xD4]) (at' .idle)) =
      some (rcv 0x20 3 3 1 [0xD0, 0xD1, 0xD2], [.none]) := by decide

/-- D-CF6 with the foreign address and `id` of D-CF7. -/
theorem test_cf_completes : seen (exec (.cf 0x456 0x99 1 [0xA5, 0xA6, 0xA7, 0xA8, 0xA9, 0xEE])
    (at' (rcv 0x20 10 5 1 [0xA0, 0xA1, 0xA2, 0xA3, 0xA4]))) =
    some (.idle, [.msg { id := 0x123, addr := 0x20, declaredLength := 10,
                         data := [0xA0, 0xA1, 0xA2, 0xA3, 0xA4, 0xA5, 0xA6, 0xA7, 0xA8, 0xA9] }]) := by decide

/-- As D-CF11, the wrap from 15 to 0, with the short frame of D-CF8. -/
theorem test_cf_wraps : seen (exec (.cf 0x123 0x20 15 [6, 7]) (at' (rcv 0x20 101 5 15 [1, 2, 3, 4, 5]))) =
    some (rcv 0x20 101 7 0 [1, 2, 3, 4, 5, 6, 7], [.none]) := by decide

/-- D-FC3. -/
theorem test_fc : seen (exec (.fc 0x123 0xFF 15 [0xFF]) (at' rcvX)) = some (rcvX, [.none]) := by decide

/-- D-UN2. -/
theorem test_unk47 : seen (exec (.unk47 0x123 0x20 0x0F []) (at' rcvX)) =
    some (rcvX, [.err .unknownDiscriminator]) := by decide

/-- D-UN3. -/
theorem test_unk8F : seen (exec (.unk8F 0x123 0x20 0x7F [1]) (at' rcvX)) =
    some (rcvX, [.err .unknownDiscriminator]) := by decide

/-- D-SF20. -/
theorem test_push_rejected_single_frame : seen (exec (.push (frm [0x20, 0x00])) (at' rcvX)) =
    some (rcvX, [.err .invalidLength]) := by decide

/-- D-FF12 and D-MF1. -/
theorem test_push_malformed :
    seen (exec (.push (frm [0x20, 0x10])) (at' rcvX)) = some (rcvX, [.err .malformedFrame]) ∧
    seen (exec (.push (frm [])) (at' .idle)) = some (.idle, [.err .malformedFrame]) := by decide

/-- E7. -/
theorem test_enc_spills : seen (exec (.enc 0x123 0x20 [0xA0, 0xA1, 0xA2, 0xA3, 0xA4, 0xA5, 0xA6, 0xA7, 0xA8, 0xA9, 0xAA,
    0xAB]) (at' rcvX)) =
    some (rcvX, [.frames [frm [0x20, 0x10, 0x0C, 0xA0, 0xA1, 0xA2, 0xA3, 0xA4],
                          frm [0x20, 0x21, 0xA5, 0xA6, 0xA7, 0xA8, 0xA9, 0xAA], frm [0x20, 0x22, 0xAB]]]) := by decide

/-- E18 and E1. -/
theorem test_enc_short :
    seen (exec (.enc 0x123 0x1F3 [1, 2]) (at' .idle)) = some (.idle, [.frames [frm [0xF3, 2, 1, 2]]]) ∧
    seen (exec (.enc 0x123 0x20 []) (at' .idle)) = some (.idle, [.frames [frm [0x20, 0]]]) := by decide

/-- A2. -/
theorem test_abort : seen (exec .abort (at' rcvX)) = some (.idle, [.noValue]) := by decide

theorem test_rsvdOp3 : exec .rsvdOp3 (at' rcvX) = .refused .reservedOperation := rfl

/-- The first step after reset on a placed word: byte 1 of a first frame that declares 0 bytes (as D-FF7). -/
theorem test_placed_first_frame : seen (step (State.reset.withFetchWord 8 0x10)) =
    some (.receiving { id := 0, addr := 0, declaredLength := 0, buf := [], rxCount := 0, expSeq := 1 }, [.none]) := by
  decide

/-- A5. -/
theorem test_step_reset : seen (step { handler := rcvX, pending := [.reset], results := [] }) =
    some (.idle, [.noValue]) := by decide

/-! ### Witnesses: each hypothesis of each statement is met, clause by clause -/

theorem rcv_inv_X : (at' rcvX).Inv := ⟨by decide, by decide, by decide⟩

/-- `Rcv{0x123, 0x20, 10, 5, 1, [A0..A4]}`, the start state of D-CF3 to D-CF9. -/
def rcvB : Handler := rcv 0x20 10 5 1 [0xA0, 0xA1, 0xA2, 0xA3, 0xA4]

theorem rcv_inv_B : (at' rcvB).Inv := ⟨by decide, by decide, by decide⟩

/-- A full message of 3 bytes that is not yet returned (after D-FF6). -/
def rcvFull : Handler := rcv 0x20 3 3 1 [0xD0, 0xD1, 0xD2]

theorem rcv_inv_full : (at' rcvFull).Inv := ⟨by decide, by decide, by decide⟩

theorem witness_SingleFrameReturnsItsMessage :
    (1 ≤ (1 : Nibble).toNat ∧ (1 : Nibble).toNat ≤ 6) ∧ (1 ≤ (6 : Nibble).toNat ∧ (6 : Nibble).toNat ≤ 6) ∧
    ((0 : Nibble).toNat = 0 ∨ 7 ≤ (0 : Nibble).toNat) ∧ ((7 : Nibble).toNat = 0 ∨ 7 ≤ (7 : Nibble).toNat) ∧
    ((15 : Nibble).toNat = 0 ∨ 7 ≤ (15 : Nibble).toNat) := by decide

theorem witness_MalformedFramesChangeNothing :
    ((frm []).IsFrame ∧ (frm []).length < 2) ∧ ((frm [0x20]).IsFrame ∧ (frm [0x20]).length < 2) ∧
    (0x10 : Byte).toNat / 16 = 1 ∧ (0x1F : Byte).toNat / 16 = 1 := by decide

theorem witness_StartingFramesOverwriteSilently :
    (1 ≤ (1 : Nibble).toNat ∧ (1 : Nibble).toNat ≤ 6) ∧ (1 ≤ (6 : Nibble).toNat ∧ (6 : Nibble).toNat ≤ 6) ∧
    ((0 : Nibble).toNat = 0 ∨ 7 ≤ (0 : Nibble).toNat) ∧ ((7 : Nibble).toNat = 0 ∨ 7 ≤ (7 : Nibble).toNat) ∧
    ([0x00] : List Byte) ≠ [] ∧ ([] : List Byte) = [] := by decide

/-- Declared lengths 0, 5 and 6. -/
theorem witness_FirstFramesDeclaringFewBytes :
    (∃ t, exec (.ff 0x123 0x20 0 [0]) (at' .idle) = .next t ∧ (0 : Byte).toNat ≤ 5 ∧
      (0 : Byte).toNat ≤ ([] : List Byte).length) ∧
    (∃ t, exec (.ff 0x123 0x20 0 [5, 1, 2, 3, 4, 5]) (at' rcvX) = .next t ∧ (5 : Byte).toNat ≤ 5 ∧
      (5 : Byte).toNat ≤ ([1, 2, 3, 4, 5] : List Byte).length) ∧
    (∃ t, exec (.ff 0x123 0x20 0 [6, 1, 2, 3, 4, 5]) (at' .idle) = .next t ∧ (6 : Byte).toNat = 6 ∧
      5 ≤ ([1, 2, 3, 4, 5] : List Byte).length ∧ ([6] : List Byte) = 6 :: []) :=
  ⟨⟨_, rfl, by decide, by decide⟩, ⟨_, rfl, by decide, by decide⟩, ⟨_, rfl, by decide, by decide, rfl⟩⟩

theorem witness_ConsecutiveFrameOutOfTurn :
    (at' .idle).handler = .idle ∧ ∃ r, (at' rcvB).handler = .receiving r ∧ (0 : Nibble) ≠ r.expSeq :=
  ⟨rfl, _, rfl, by decide⟩

/-- The Idle clause, a wrong sequence number, completion with all and with none of the frame's bytes needed, and
continuation with an empty chunk and with a chunk that leaves bytes to come. -/
theorem witness_ConsecutiveFrameRule :
    ((at' .idle).Inv ∧ (at' .idle).handler = .idle) ∧
    (∃ r, (at' rcvB).Inv ∧ (at' rcvB).handler = .receiving r ∧ (2 : Nibble) ≠ r.expSeq) ∧
    (∃ r, (at' rcvB).Inv ∧ (at' rcvB).handler = .receiving r ∧ (1 : Nibble) = r.expSeq ∧
      r.rxCount.toNat + (([1, 2, 3, 4, 5] : List Byte).take (min (r.declaredLength.toNat - r.rxCount.toNat) 6)).length =
        r.declaredLength.toNat) ∧
    (∃ r, (at' rcvFull).Inv ∧ (at' rcvFull).handler = .receiving r ∧ (1 : Nibble) = r.expSeq ∧
      r.rxCount.toNat + (([] : List Byte).take (min (r.declaredLength.toNat - r.rxCount.toNat) 6)).length =
        r.declaredLength.toNat) ∧
    (∃ r, (at' rcvB).Inv ∧ (at' rcvB).handler = .receiving r ∧ (1 : Nibble) = r.expSeq ∧
      r.rxCount.toNat + (([] : List Byte).take (min (r.declaredLength.toNat - r.rxCount.toNat) 6)).length ≠
        r.declaredLength.toNat ∧
      r.rxCount.toNat + (([1, 2, 3, 4] : List Byte).take (min (r.declaredLength.toNat - r.rxCount.toNat) 6)).length ≠
        r.declaredLength.toNat) :=
  ⟨⟨trivial, rfl⟩, ⟨_, rcv_inv_B, rfl, by decide⟩, ⟨_, rcv_inv_B, rfl, rfl, by decide⟩,
   ⟨_, rcv_inv_full, rfl, rfl, by decide⟩, ⟨_, rcv_inv_B, rfl, rfl, by decide, by decide⟩⟩

theorem witness_ConsecutiveFrameStoresOnlyItsChunk :
    ∃ r t r', (at' rcvB).handler = .receiving r ∧ exec (.cf 0x123 0x20 r.expSeq [0xA5, 0xA6]) (at' rcvB) = .next t ∧
      t.handler = .receiving r' ∧
      1 < (([0xA5, 0xA6] : List Byte).take (min (r.declaredLength.toNat - r.rxCount.toNat) 6)).length :=
  ⟨_, _, _, rfl, rfl, rfl, by decide⟩

/-- A frame padded after its five needed bytes, as D-CF6. -/
theorem witness_ConsecutiveFrameIgnoresAddressIdAndPadding :
    ∃ r, (at' rcvB).handler = .receiving r ∧
      ([1, 2, 3, 4, 5, 0xEE] : List Byte).take (min (r.declaredLength.toNat - r.rxCount.toNat) 6) =
        ([1, 2, 3, 4, 5, 0xFF] : List Byte).take (min (r.declaredLength.toNat - r.rxCount.toNat) 6) :=
  ⟨_, rfl, by decide⟩

theorem witness_LengthMismatchNeverReturned :
    ∃ t, (at' rcvB).Inv ∧ exec (.cf 0x123 0x20 1 [0xA5, 0xA6]) (at' rcvB) = .next t :=
  ⟨_, rcv_inv_B, rfl⟩

/-- A run over a first frame, a consecutive frame, a reset and a first frame, which ends in Receiving. -/
theorem witness_LengthMismatchNeverOccursInARun :
    ∃ t r, Host.Core.run Sys2Proof.core 4
        { State.reset with
          pending := pushAll [frm [0x20, 0x10, 8, 1, 2, 3, 4, 5], frm [0x20, 0x21, 6]] ++ [.reset]
                      ++ pushAll [frm [0x20, 0x10, 0]] } = .next t ∧ t.handler = .receiving r :=
  ⟨_, _, rfl, rfl⟩

/-- One accepted consecutive frame, with another input behind it. -/
theorem witness_SequenceNumberCountsAcceptedFrames :
    ∃ t r, (∀ f ∈ [frm [0x20, 0x21, 0xA5]], ∃ id addr sn body, decodeFrame f = .ok (.cf id addr sn body)) ∧
      rcvB = .receiving r ∧ r.expSeq = 1 ∧
      Host.Core.run Sys2Proof.core 1
        { handler := rcvB, pending := pushAll [frm [0x20, 0x21, 0xA5]] ++ [.reset], results := [] } = .next t ∧
      t.results = [] ++ List.replicate 1 .none :=
  ⟨_, _, by intro f hf; simp only [List.mem_singleton] at hf; subst hf; exact ⟨_, _, _, _, rfl⟩, rfl, rfl, rfl, rfl⟩

/-- Frame 17 where frame 1 is expected, and frame 16 where frame 0 is (as after a wrap): it completes the message, and it
leaves bytes to come, with chunks of 6 bytes, 1 byte and none. -/
theorem witness_SixteenLostFramesAreNotSeen :
    (∃ r, (at' rcvX).Inv ∧ rcvX = .receiving r ∧ r.expSeq.toNat = 1 % 16 ∧ ([6, 7, 8, 9, 10, 11] : List Byte).length ≤ 6 ∧
      r.rxCount.toNat + (([6, 7, 8, 9, 10, 11] : List Byte).take (r.declaredLength.toNat - r.rxCount.toNat)).length =
        r.declaredLength.toNat) ∧
    (∃ r, (at' rcvX).Inv ∧ rcvX = .receiving r ∧ r.expSeq.toNat = 1 % 16 ∧
      r.rxCount.toNat + (([6] : List Byte).take (r.declaredLength.toNat - r.rxCount.toNat)).length ≠
        r.declaredLength.toNat) ∧
    (∃ r, (at' (rcv 0x20 101 5 0 [1, 2, 3, 4, 5])).Inv ∧ rcv 0x20 101 5 0 [1, 2, 3, 4, 5] = .receiving r ∧
      r.expSeq.toNat = 0 % 16 ∧
      r.rxCount.toNat + (([] : List Byte).take (r.declaredLength.toNat - r.rxCount.toNat)).length ≠
        r.declaredLength.toNat) :=
  ⟨⟨_, rcv_inv_X, rfl, by decide, by decide, by decide⟩, ⟨_, rcv_inv_X, rfl, by decide, by decide⟩,
   ⟨_, ⟨by decide, by decide, by decide⟩, rfl, by decide, by decide⟩⟩

/-- The two boundary lengths of a single frame; a frame with exactly the bytes that are needed, and one without any on a
message that is full already. -/
theorem witness_CompletionLeavesAFreshHandler :
    (1 ≤ (1 : Nibble).toNat ∧ (1 : Nibble).toNat ≤ 6) ∧ (1 ≤ (6 : Nibble).toNat ∧ (6 : Nibble).toNat ≤ 6) ∧
    (∃ r d, (at' rcvX).Inv ∧ rcvX = .receiving r ∧ memRead r.buf 0 r.rxCount.toNat = some d ∧
      r.declaredLength.toNat ≤ r.rxCount.toNat + min 6 ([6, 7, 8] : List Byte).length) ∧
    (∃ r d, (at' rcvFull).Inv ∧ rcvFull = .receiving r ∧ memRead r.buf 0 r.rxCount.toNat = some d ∧
      r.declaredLength.toNat ≤ r.rxCount.toNat + min 6 ([] : List Byte).length) :=
  ⟨by decide, by decide, ⟨_, _, rcv_inv_X, rfl, rfl, by decide⟩, ⟨_, _, rcv_inv_full, rfl, rfl, by decide⟩⟩

theorem witness_PushGoesByTheDiscriminator :
    ((frm [0x20]).IsFrame ∧ (frm [0x20]).length < 2) ∧
    ((frm [0x20, 0x0F]).IsFrame ∧ (0x0F : Byte).toNat / 16 = 0) ∧
    ((frm [0x20, 0x10]).IsFrame ∧ (0x10 : Byte).toNat / 16 = 1) ∧
    ((frm [0x20, 0x2F]).IsFrame ∧ (0x2F : Byte).toNat / 16 = 2) ∧
    ((frm [0x20, 0x30]).IsFrame ∧ (0x30 : Byte).toNat / 16 = 3) ∧
    ((frm [0x20, 0x40, 0, 0, 0, 0, 0, 0]).IsFrame ∧ 4 ≤ (0x40 : Byte).toNat / 16) ∧ 4 ≤ (0xFF : Byte).toNat / 16 := by
  decide

theorem witness_PushRunsTheClassOfItsFrame :
    decodeFrame (frm [0x20, 0x2F]) = .ok (.cf 0x123 0x20 15 []) ∧ decodeFrame (frm [0x20]) = .ok (.push (frm [0x20])) := by
  decide

theorem witness_PushCompletes : (frm []).IsFrame ∧ (frm [0x20, 0x21, 0, 0, 0, 0, 0, 0]).IsFrame ∧ (at' rcvB).Inv :=
  ⟨by decide, by decide, rcv_inv_B⟩

theorem witness_PushOfAFullSingleFrame :
    (1 ≤ ([0xAA] : List Byte).length ∧ ([0xAA] : List Byte).length ≤ 6) ∧
    (1 ≤ ([1, 2, 3, 4, 5, 6] : List Byte).length ∧ ([1, 2, 3, 4, 5, 6] : List Byte).length ≤ 6) := by decide

theorem witness_EncReturnsFramesAndTouchesNothing :
    (List.replicate 4095 (0 : Byte)).length ≤ 4095 ∧ 4095 < (List.replicate 4096 (0 : Byte)).length := by
  rw [List.length_replicate, List.length_replicate]
  decide

theorem witness_EncOfAShortPayload :
    ([] : List Byte).length < 7 ∧ (List.replicate 6 (0 : Byte)).length < 7 := by decide

theorem witness_EncOfALongPayload :
    (7 ≤ (List.replicate 7 (0 : Byte)).length ∧ (List.replicate 7 (0 : Byte)).length ≤ 4095) ∧
    (7 ≤ (List.replicate 4095 (0 : Byte)).length ∧ (List.replicate 4095 (0 : Byte)).length ≤ 4095) := by
  rw [List.length_replicate, List.length_replicate]
  decide

theorem witness_EncEmitsFramesOfTypesZeroToTwo :
    ([1] : List Byte).length ≤ 4095 ∧ frm [0x20, 1, 1] ∈ encFrames 0x123 0x20 [1] := by decide

/-- A single-frame message and a message of two frames. -/
theorem witness_EncodedMessagesComeBackWhole :
    (∃ t₀ fs, 1 ≤ ([0xAA] : List Byte).length ∧ ([0xAA] : List Byte).length ≤ 4095 ∧
      exec (.enc 0x123 0x10 [0xAA]) (at' rcvX) = .next t₀ ∧ t₀.results = (at' rcvX).results ++ [.frames fs] ∧
      State.handler { handler := .idle, pending := pushAll fs ++ [.reset], results := [] } = .idle) ∧
    (∃ t₀ fs, 1 ≤ (List.replicate 7 (5 : Byte)).length ∧ (List.replicate 7 (5 : Byte)).length ≤ 4095 ∧
      exec (.enc 0x123 0x10 (List.replicate 7 5)) (at' .idle) = .next t₀ ∧
      t₀.results = (at' .idle).results ++ [.frames fs] ∧ fs.length = 2) :=
  ⟨⟨_, _, by decide, by decide, rfl, rfl, rfl⟩, ⟨_, _, by decide, by decide, rfl, rfl, rfl⟩⟩

/-- A state with one command pending, used for the statements about a step. -/
def issued (c : Command) : State := { handler := rcvX, pending := [.command c], results := [] }

theorem witness_ReservedOperationIsRefused :
    (bareCommand 3).op = 3 ∧ (issued (bareCommand 3)).pending = .command (bareCommand 3) :: [] := ⟨rfl, rfl⟩

theorem witness_ResetMayBeAppliedInAnyState :
    State.pending { handler := rcvX, pending := [.reset, .reset], results := [] } = .reset :: [.reset] := rfl

theorem witness_StepRunsTheDecodedCommand :
    (issued (bareCommand 2)).pending = .command (bareCommand 2) :: [] ∧ decode (bareCommand 2) = .ok .abort := ⟨rfl, rfl⟩

theorem witness_StepRunsTheClassOfAPushedFrame :
    (issued (pushCommand (frm [0x20, 0x21, 6]))).pending = .command (pushCommand (frm [0x20, 0x21, 6])) :: [] ∧
    decodeFrame (frm [0x20, 0x21, 6]) = .ok (.cf 0x123 0x20 1 [6]) := ⟨rfl, rfl⟩

theorem witness_StepRunsThePlacedWord :
    decodeTableWord 8 0x2F = some (.cf 0 0 15 (List.replicate 6 0)) ∧ decodeTableWord 8 2 = some .abort := by decide

/-- A `length` of 9, a `length` that is no count, and 4096 payload bytes. -/
theorem witness_StepRefusesWhatCannotBePresented :
    ((pushCommand { id := 0, length := 9, data := [] }).op = 0 ∧
      8 < (pushCommand { id := 0, length := 9, data := [] }).frame.length) ∧
    ((pushCommand { id := 0, length := 2, data := [1] }).op = 0 ∧
      (pushCommand { id := 0, length := 2, data := [1] }).frame.data.length ≠ 2) ∧
    ((encCommand 0 0 (List.replicate 4096 0)).op = 1 ∧
      4095 < (encCommand 0 0 (List.replicate 4096 0)).payload.length) :=
  ⟨by decide, by decide, rfl, by show 4095 < (List.replicate 4096 (0 : Byte)).length; rw [List.length_replicate]; decide⟩

theorem witness_NothingHappensWithoutAHostOperation : (at' rcvX).pending = [] := rfl

theorem witness_OneResultPerOperation :
    (∃ t, exec (.push (frm [0x20, 0x21, 6])) (at' rcvX) = .next t) ∧ (∃ t, exec (.enc 1 2 [3]) (at' rcvX) = .next t) ∧
    (∃ t, exec .abort (at' rcvX) = .next t) ∧
    (∃ t, step { handler := rcvX, pending := [.reset], results := [] } = .next t) :=
  ⟨⟨_, rfl⟩, ⟨_, rfl⟩, ⟨_, rfl⟩, ⟨_, rfl⟩⟩

theorem witness_ErrorsLeaveTheHandlerAsItWas :
    ∃ t, (at' rcvB).Inv ∧ exec (.cf 0x123 0x20 2 [0xA5]) (at' rcvB) = .next t ∧
      t.results = (at' rcvB).results ++ [.err .sequenceError] :=
  ⟨_, rcv_inv_B, rfl, rfl⟩

/-- A first frame from Idle and one over a message in progress, a continuing and a completing consecutive frame; a step on
a reset and one on a pushed frame. -/
theorem witness_OnlyTheseOperationsMoveTheHandler :
    (∃ t r, exec (.push (frm [0x20, 0x10, 0x0A, 1])) (at' .idle) = .next t ∧ t.handler = .receiving r) ∧
    (∃ t r r', exec (.ff 0x123 0x30 0 [8, 1]) (at' rcvX) = .next t ∧ rcvX = .receiving r ∧ t.handler = .receiving r' ∧
      r' ≠ r) ∧
    (∃ t r r', exec (.cf 0x123 0x30 1 []) (at' rcvX) = .next t ∧ rcvX = .receiving r ∧ t.handler = .receiving r' ∧
      r' ≠ r) ∧
    (∃ t r, exec (.cf 0x123 0x30 1 [6, 7, 8]) (at' rcvX) = .next t ∧ rcvX = .receiving r ∧ t.handler = .idle) ∧
    (∃ t, step { handler := rcvX, pending := [.reset], results := [] } = .next t ∧ t.handler ≠ rcvX) ∧
    (∃ t, step (issued (pushCommand (frm [0x20, 0x21, 6]))) = .next t ∧ t.handler ≠ rcvX) :=
  ⟨⟨_, _, rfl, rfl⟩, ⟨_, _, _, rfl, rfl, rfl, by decide⟩, ⟨_, _, _, rfl, rfl, rfl, by decide⟩, ⟨_, _, rfl, rfl, rfl⟩,
   ⟨_, rfl, by decide⟩, ⟨_, rfl, by decide⟩⟩

theorem witness_EffectsDependOnTheHandlerAlone :
    ∃ t, State.handler { handler := rcvX, pending := [.reset], results := [.none] } = (at' rcvX).handler ∧
      exec (.cf 0x123 0x30 1 [6, 7, 8]) (at' rcvX) = .next t :=
  ⟨_, rfl, rfl⟩

theorem witness_StepKeepsTheInvariant :
    ∃ t, (issued (pushCommand (frm [0x20, 0x21, 6]))).Inv ∧ step (issued (pushCommand (frm [0x20, 0x21, 6]))) = .next t :=
  ⟨_, rcv_inv_X, rfl⟩

theorem witness_TheInvariantBoundsTheBuffer : ∃ r, (at' rcvFull).Inv ∧ (at' rcvFull).handler = .receiving r :=
  ⟨_, rcv_inv_full, rfl⟩

theorem witness_NoFaultUnderTheInvariant : (at' rcvFull).Inv ∧ (at' rcvX).Inv := ⟨rcv_inv_full, rcv_inv_X⟩

theorem witness_DecodeOfEncode :
    (Instr.cf 1 2 3 (List.replicate 6 0)).wellFormed = true ∧ (Instr.ff 1 2 3 []).wellFormed = true ∧
    (Instr.push (frm [])).wellFormed = true := by decide

theorem witness_EncodeOfDecodedFrame :
    ((frm [0x20, 0x10]).IsFrame ∧ 2 ≤ (frm [0x20, 0x10]).length) ∧
    ((frm [0x20, 0xFF, 0, 0, 0, 0, 0, 0]).IsFrame ∧ 2 ≤ (frm [0x20, 0xFF, 0, 0, 0, 0, 0, 0]).length) := by decide

theorem witness_DecodedCommandsAreWellFormed : decode (pushCommand (frm [])) = .ok (.push (frm [])) := by decide

end Sys2Proof.Tests
end

section
/-! # The effect of one operation

What an instruction does to the handler, and the one result it hands over, as a labelled transition relation with a
constructor per way an operation can end; `exec` goes on exactly along it. -/

namespace Sys2Proof.Machine

/-! ### A frame's class -/

/-- The class is chosen by byte 1 alone, so `PUSH`'s case on `type` (R100) runs the class the table selects (R74). -/
theorem pushByType_eq_exec_classify (id : Config.Id) (addr b1 : Byte) (body : List Byte) (s : State) :
    pushByType id addr b1 body s = exec (classify id addr b1 body) s := by
  rw [classify_eq, pushByType, highNibble_toNat]
  split
  case h_5 h0 h1 h2 h3 =>
    rw [if_neg h0, if_neg h1, if_neg h2, if_neg h3]
    split <;> rfl
  all_goals next h => simp only [h]; rfl

theorem decodeFrame_of_two_bytes {f : Frame} {addr b1 : Byte} {body : List Byte} (hf : f.IsFrame)
    (hd : f.data = addr :: b1 :: body) : decodeFrame f = .ok (classify f.id addr b1 body) := by
  rw [decodeFrame, if_pos hf, hd]

theorem decodeFrame_of_short {f : Frame} (hf : f.IsFrame) (hl : f.data.length < 2) : decodeFrame f = .ok (.push f) := by
  rw [decodeFrame, if_pos hf]
  split
  · next h => simp [h] at hl
  · rfl

theorem decodeFrame_of_not_isFrame {f : Frame} (hf : ¬ f.IsFrame) : decodeFrame f = .error .notAFrame := by
  rw [decodeFrame, if_neg hf]

theorem operationOf_push_of_ok {f : Frame} {i : Instr} (h : decodeFrame f = .ok i) : operationOf (.push f) = i := by
  rw [operationOf, h]

/-- What a `PUSH` stands for: the class of its frame, or itself when the frame has no byte 1 or is no frame value. -/
theorem operationOf_push_cases (f : Frame) :
    (∃ addr b1 body, f.IsFrame ∧ f.data = addr :: b1 :: body ∧
      operationOf (.push f) = classify f.id addr b1 body) ∨
    (f.IsFrame ∧ f.data.length < 2 ∧ operationOf (.push f) = .push f) ∨
    (¬ f.IsFrame ∧ operationOf (.push f) = .push f) := by
  by_cases hf : f.IsFrame
  · match hd : f.data with
    | addr :: b1 :: body =>
      exact .inl ⟨addr, b1, body, hf, rfl, operationOf_push_of_ok (decodeFrame_of_two_bytes hf hd)⟩
    | [] => exact .inr (.inl ⟨hf, by simp, operationOf_push_of_ok (decodeFrame_of_short hf (by simp [hd]))⟩)
    | [_] => exact .inr (.inl ⟨hf, by simp, operationOf_push_of_ok (decodeFrame_of_short hf (by simp [hd]))⟩)
  · exact .inr (.inr ⟨hf, by rw [operationOf, decodeFrame_of_not_isFrame hf]⟩)

/-- `PUSH` does what the class of its frame does, and every other instruction stands for itself (R64, R74, R100). -/
theorem exec_operationOf (i : Instr) (s : State) : exec (operationOf i) s = exec i s := by
  cases i with
  | push f =>
    obtain ⟨addr, b1, body, hf, hd, hop⟩ | ⟨-, -, hop⟩ | ⟨-, hop⟩ := operationOf_push_cases f
    · rw [hop, ← pushByType_eq_exec_classify]
      simp only [exec, execPush, if_pos hf, hd]
    · rw [hop]
    · rw [hop]
  | _ => rfl

/-- The frame classes of the table (R64). -/
def isClass : Instr → Bool
  | .push _ | .enc _ _ _ | .abort | .rsvdOp3 => false
  | _ => true

theorem isClass_classify (id : Config.Id) (addr b1 : Byte) (body : List Byte) :
    isClass (classify id addr b1 body) = true := by
  rw [classify_eq]
  split_ifs <;> rfl

/-- Only a frame class is what another instruction stands for. -/
theorem eq_of_operationOf_eq {i j : Instr} (hj : isClass j = false) (h : operationOf i = j) : i = j := by
  cases i with
  | push f =>
    obtain ⟨addr, b1, body, -, -, hop⟩ | ⟨-, -, hop⟩ | ⟨-, hop⟩ := operationOf_push_cases f
    · rw [← h, hop, isClass_classify] at hj; cases hj
    · rw [← h, hop]
    · rw [← h, hop]
  | _ => exact h

theorem operationOf_operationOf (i : Instr) : operationOf (operationOf i) = operationOf i := by
  cases hj : operationOf i with
  | push f => exact eq_of_operationOf_eq rfl hj ▸ hj
  | _ => rfl

/-! ### The registers after a consecutive frame's chunk -/

/-- The registers after the append of `PushCF` (R104). -/
def receiveChunk (r : Reassembly) (body : List Byte) : Reassembly := appendChunk r (cfChunkOf r body)

@[simp] theorem receiveChunk_expSeq (r : Reassembly) (body : List Byte) : (receiveChunk r body).expSeq = r.expSeq := rfl
@[simp] theorem receiveChunk_rxCount_toNat (r : Reassembly) (body : List Byte) :
    (receiveChunk r body).rxCount.toNat = r.rxCount.toNat + (cfChunkOf r body).length :=
  appendChunk_rxCount_toNat r (cfChunkOf_length_le r body)

theorem receiveChunk_buffered {r : Reassembly} (body : List Byte)
    (hb : r.buf.map Prod.fst = List.range r.rxCount.toNat) :
    (receiveChunk r body).buf.map Prod.fst = List.range (receiveChunk r body).rxCount.toNat :=
  (appendChunk_buffered hb (cfChunkOf_length_le r body)).1

theorem receiveChunk_bounded {r : Reassembly} (body : List Byte) (h : r.rxCount.toNat ≤ r.declaredLength.toNat) :
    (receiveChunk r body).rxCount.toNat ≤ r.declaredLength.toNat := by
  have hc : (cfChunkOf r body).length ≤ r.declaredLength.toNat - r.rxCount.toNat := cfChunkOf_length_le r body
  rw [receiveChunk_rxCount_toNat]
  omega

/-- A consecutive frame with the expected number appends its chunk, and its end depends on what that leaves (R104). -/
theorem execCf_expected {s : State} {r : Reassembly} (hs : s.handler = .receiving r) (id : Config.Id) (addr : Byte)
    (body : List Byte) : execCf id addr r.expSeq body s = finishConsecutive (receiveChunk r body) s := by
  simp only [execCf, hs, sequenceMatches, beq_self_eq_true, if_true, receiveChunk, cfChunkOf, cfOff, cfChunk,
    dataSlice_two]

theorem execFf_cons (id : Config.Id) (addr : Byte) (hi : Nibble) (byte2 : Byte) (payload : List Byte) (s : State) :
    execFf id addr hi (byte2 :: payload) s =
      returnNone (setHandler (.receiving (startReassembly id addr (assembleLength hi byte2)
        (payload.take (min (assembleLength hi byte2).toNat 5)))) s) := by
  rw [← dataSlice_three byte2]
  rfl

/-! ### The transition relation -/

/-- `Effect i h h' x`: the operation `i` (a class of frames, or what no frame stands for) may take the handler from `h`
to `h'` and hand over `x` (R80, R101 to R106, R120). -/
inductive Effect : Instr → Handler → Handler → Result → Prop
  | sfMsg {id addr dl body h} (legal : 1 ≤ dl.toNat ∧ dl.toNat ≤ 6) :
      Effect (.sf id addr dl body) h .idle
        (.msg { id := id, addr := addr, declaredLength := dl.setWidth 12, data := body.take dl.toNat })
  | sfErr {id addr dl body h} (illegal : ¬ (1 ≤ dl.toNat ∧ dl.toNat ≤ 6)) :
      Effect (.sf id addr dl body) h h (.err .invalidLength)
  | ffNone {id addr hi byte2 payload h} :
      Effect (.ff id addr hi (byte2 :: payload)) h
        (.receiving (startReassembly id addr (assembleLength hi byte2)
          (payload.take (min (assembleLength hi byte2).toNat 5)))) .none
  | ffErr {id addr hi h} : Effect (.ff id addr hi []) h h (.err .malformedFrame)
  | cfIdle {id addr sn body} : Effect (.cf id addr sn body) .idle .idle (.err .sequenceError)
  | cfUnexpected {id addr sn body r} (unexpected : sn ≠ r.expSeq) :
      Effect (.cf id addr sn body) (.receiving r) (.receiving r) (.err .sequenceError)
  | cfMsg {id addr body r data} (complete : (receiveChunk r body).rxCount = r.declaredLength)
      (read : memRead (receiveChunk r body).buf 0 (receiveChunk r body).rxCount.toNat = some data) :
      Effect (.cf id addr r.expSeq body) (.receiving r) .idle
        (.msg { id := r.id, addr := r.addr, declaredLength := r.declaredLength, data := data })
  | cfOverrun {id addr body r} (excess : r.declaredLength.toNat < (receiveChunk r body).rxCount.toNat) :
      Effect (.cf id addr r.expSeq body) (.receiving r) (.receiving (receiveChunk r body)) (.err .lengthMismatch)
  | cfNone {id addr body r} (incomplete : (receiveChunk r body).rxCount.toNat < r.declaredLength.toNat) :
      Effect (.cf id addr r.expSeq body) (.receiving r) (.receiving (advanceSeq (receiveChunk r body))) .none
  | fc {id addr low body h} : Effect (.fc id addr low body) h h .none
  | unk47 {id addr low body h} : Effect (.unk47 id addr low body) h h (.err .unknownDiscriminator)
  | unk8F {id addr low body h} : Effect (.unk8F id addr low body) h h (.err .unknownDiscriminator)
  | pushShort {f h} (frame : f.IsFrame) (short : f.data.length < 2) : Effect (.push f) h h (.err .malformedFrame)
  | enc {id dest payload h} (fits : PayloadFits payload) :
      Effect (.enc id dest payload) h h (.frames (encFrames id dest payload))
  | abort {h} : Effect .abort h .idle .noValue

/-- A single frame can always be answered. -/
theorem Effect.exists_sf (id : Config.Id) (addr : Byte) (dl : Nibble) (body : List Byte) (h : Handler) :
    ∃ h' x, Effect (.sf id addr dl body) h h' x := by
  by_cases hl : 1 ≤ dl.toNat ∧ dl.toNat ≤ 6
  · exact ⟨_, _, .sfMsg hl⟩
  · exact ⟨_, _, .sfErr hl⟩

/-- A first frame can always be answered. -/
theorem Effect.exists_ff (id : Config.Id) (addr : Byte) (hi : Nibble) (body : List Byte) (h : Handler) :
    ∃ h' x, Effect (.ff id addr hi body) h h' x := by
  cases body with
  | nil => exact ⟨_, _, .ffErr⟩
  | cons byte2 payload => exact ⟨_, _, .ffNone⟩

/-- A consecutive frame can be answered unless it completes a message of which a byte was never written (U19). -/
theorem Effect.exists_cf_or_missing_byte (id : Config.Id) (addr : Byte) (sn : Nibble) (body : List Byte) (h : Handler) :
    (∃ h' x, Effect (.cf id addr sn body) h h' x) ∨
    ∃ r, h = .receiving r ∧ sn = r.expSeq ∧ (receiveChunk r body).rxCount = r.declaredLength ∧
      memRead (receiveChunk r body).buf 0 (receiveChunk r body).rxCount.toNat = none := by
  cases h with
  | idle => exact .inl ⟨_, _, .cfIdle⟩
  | receiving r =>
    by_cases hsn : sn = r.expSeq
    · subst hsn
      rcases lt_trichotomy (receiveChunk r body).rxCount.toNat r.declaredLength.toNat with hlt | heq | hgt
      · exact .inl ⟨_, _, .cfNone hlt⟩
      · have hc := BitVec.eq_of_toNat_eq heq
        cases hm : memRead (receiveChunk r body).buf 0 (receiveChunk r body).rxCount.toNat with
        | none => exact .inr ⟨r, rfl, rfl, hc, hm⟩
        | some data => exact .inl ⟨_, _, .cfMsg hc hm⟩
      · exact .inl ⟨_, _, .cfOverrun hgt⟩
    · exact .inl ⟨_, _, .cfUnexpected hsn⟩

theorem setHandler_self {s : State} {h : Handler} (hs : s.handler = h) : setHandler h s = s := hs ▸ rfl

section Finish

variable {r : Reassembly} (s : State)

theorem finishConsecutive_of_complete {data : List Byte} (complete : r.rxCount = r.declaredLength)
    (read : memRead r.buf 0 r.rxCount.toNat = some data) :
    finishConsecutive r s =
      returnMsg { id := r.id, addr := r.addr, declaredLength := r.declaredLength, data := data } s := by
  rw [finishConsecutive, isComplete, if_pos (beq_iff_eq.2 complete), read]

theorem finishConsecutive_of_missing (complete : r.rxCount = r.declaredLength)
    (missing : memRead r.buf 0 r.rxCount.toNat = none) :
    finishConsecutive r s = .fault .bufferByteHasNoValue := by
  rw [finishConsecutive, isComplete, if_pos (beq_iff_eq.2 complete), missing]

theorem finishConsecutive_of_excess (excess : r.declaredLength.toNat < r.rxCount.toNat) :
    finishConsecutive r s = raise .lengthMismatch (setHandler (.receiving r) s) := by
  have hne : r.rxCount ≠ r.declaredLength := fun h => by rw [h] at excess; omega
  rw [finishConsecutive, isComplete, if_neg (mt beq_iff_eq.1 hne), overruns, if_pos (decide_eq_true excess)]

theorem finishConsecutive_of_incomplete (incomplete : r.rxCount.toNat < r.declaredLength.toNat) :
    finishConsecutive r s = returnNone (setHandler (.receiving (advanceSeq r)) s) := by
  have hne : r.rxCount ≠ r.declaredLength := fun h => by rw [h] at incomplete; omega
  have hno : ¬ r.declaredLength.toNat < r.rxCount.toNat := by omega
  rw [finishConsecutive, isComplete, if_neg (mt beq_iff_eq.1 hne), overruns, if_neg (mt of_decide_eq_true hno)]

end Finish

/-- Every effect is what `exec` does: the handler and one result change, nothing else. -/
theorem exec_of_effect {i : Instr} {s : State} {h : Handler} {x : Result} (he : Effect i s.handler h x) :
    exec i s = .next (deliver x (setHandler h s)) := by
  generalize hs : s.handler = h₀ at he
  cases he with
  | sfMsg legal =>
    rw [exec, execSf, if_pos ((singleLengthLegal_iff _).2 legal), sfOff, dataSlice_two]
    rfl
  | sfErr illegal =>
    rw [exec, execSf, if_neg (mt (singleLengthLegal_iff _).1 illegal), setHandler_self hs]
    rfl
  | ffNone => rw [exec, execFf_cons]; rfl
  | cfIdle => simp only [exec, execCf, hs, setHandler_self hs]; rfl
  | cfUnexpected unexpected =>
    simp only [exec, execCf, hs, sequenceMatches, beq_iff_eq, if_neg unexpected, setHandler_self hs]
    rfl
  | cfMsg complete read =>
    rw [exec, execCf_expected hs, finishConsecutive_of_complete s complete read]
    rfl
  | cfOverrun excess =>
    rw [exec, execCf_expected hs, finishConsecutive_of_excess s excess]
    rfl
  | cfNone incomplete =>
    rw [exec, execCf_expected hs, finishConsecutive_of_incomplete s incomplete]
    rfl
  | pushShort frame short =>
    rw [exec, execPush, if_pos frame, setHandler_self hs]
    split
    · next hd => simp [hd] at short
    · rfl
  | enc fits => rw [exec, execEnc, if_pos fits, setHandler_self hs]
  | abort => rfl
  | ffErr | fc | unk47 | unk8F => rw [setHandler_self hs]; rfl

/-- An operation that goes on does so along an effect. -/
theorem exists_effect_of_exec {i : Instr} {s t : State} (hop : operationOf i = i) (ht : exec i s = .next t) :
    ∃ h x, Effect i s.handler h x := by
  cases i with
  | sf id addr dl body => exact Effect.exists_sf id addr dl body _
  | ff id addr hi body => exact Effect.exists_ff id addr hi body _
  | cf id addr sn body =>
    obtain he | ⟨r, hr, rfl, complete, missing⟩ := Effect.exists_cf_or_missing_byte id addr sn body s.handler
    · exact he
    · rw [exec, execCf_expected hr, finishConsecutive_of_missing s complete missing] at ht
      cases ht
  | fc => exact ⟨_, _, .fc⟩
  | unk47 => exact ⟨_, _, .unk47⟩
  | unk8F => exact ⟨_, _, .unk8F⟩
  | push f =>
    obtain ⟨addr, b1, body, -, -, hclass⟩ | ⟨hf, short, -⟩ | ⟨hf, -⟩ := operationOf_push_cases f
    · have := isClass_classify f.id addr b1 body
      rw [← hclass, hop] at this
      cases this
    · exact ⟨_, _, .pushShort hf short⟩
    · rw [exec, execPush, if_neg hf] at ht
      cases ht
  | enc id dest payload =>
    by_cases fits : PayloadFits payload
    · exact ⟨_, _, .enc fits⟩
    · rw [exec, execEnc, if_neg fits] at ht
      cases ht
  | abort => exact ⟨_, _, .abort⟩
  | rsvdOp3 => cases ht

/-- What an instruction that goes on does, said once: an effect of the operation it stands for, on the handler and one
result, and nothing else (R27, R33). -/
theorem exec_next_iff {i : Instr} {s t : State} :
    exec i s = .next t ↔ ∃ h x, Effect (operationOf i) s.handler h x ∧ t = deliver x (setHandler h s) := by
  rw [← exec_operationOf]
  constructor
  · intro ht
    obtain ⟨h, x, he⟩ := exists_effect_of_exec (operationOf_operationOf i) ht
    rw [exec_of_effect he] at ht
    exact ⟨h, x, he, (Host.Outcome.next.inj ht).symm⟩
  · rintro ⟨h, x, he, rfl⟩
    exact exec_of_effect he

/-! ### What every effect keeps -/

theorem State.inv_iff {s : State} : s.Inv ↔ ∀ r, s.handler = .receiving r → r.Inv := by
  unfold State.Inv
  cases s.handler <;> simp

/-- R25 (b), (d): a chunk that leaves the message incomplete leaves registers that meet the invariant. -/
theorem advanceSeq_receiveChunk_inv {r : Reassembly} {body : List Byte} (hr : r.Inv)
    (incomplete : (receiveChunk r body).rxCount.toNat < r.declaredLength.toNat) :
    (advanceSeq (receiveChunk r body)).Inv where
  buffered := receiveChunk_buffered body hr.buffered
  bounded := receiveChunk_bounded body hr.bounded
  full h := by
    have : (receiveChunk r body).rxCount = r.declaredLength := h
    rw [this] at incomplete
    omega

/-- R25: an effect on registers that meet the invariant leaves Idle or registers that meet it. The overrun of R104 cannot
occur, since the chunk is cut to what remains (R109). -/
theorem Effect.keeps_inv {i : Instr} {h h' : Handler} {x : Result} (he : Effect i h h' x)
    (hinv : ∀ r, h = .receiving r → r.Inv) : ∀ r, h' = .receiving r → r.Inv := by
  cases he with
  | sfMsg | cfMsg | abort => rintro r ⟨⟩
  | ffNone =>
    rintro r ⟨⟩
    exact startReassembly_inv _ _ _ (by rw [List.length_take]; omega)
  | @cfOverrun _ _ body r excess =>
    have := receiveChunk_bounded body (hinv r rfl).bounded
    omega
  | cfNone incomplete =>
    rintro r ⟨⟩
    exact advanceSeq_receiveChunk_inv (hinv _ rfl) incomplete
  | sfErr | ffErr | cfIdle | cfUnexpected | fc | unk47 | unk8F | pushShort | enc => exact hinv

/-- The results a frame can have (R27). -/
def IsPushResult (x : Result) : Prop := x = .none ∨ (∃ m, x = .msg m) ∨ ∃ e, x = .err e

/-- The results an instruction can have (R27, R145). -/
def ResultKind (i : Instr) (x : Result) : Prop :=
  match i with
  | .enc id dest payload => x = .frames (encFrames id dest payload)
  | .abort => x = .noValue
  | _ => IsPushResult x

theorem resultKind_of_isClass {i : Instr} (hclass : isClass i = true) (x : Result) :
    ResultKind i x ↔ IsPushResult x := by
  cases i with
  | push | enc | abort | rsvdOp3 => cases hclass
  | _ => rfl

theorem resultKind_operationOf (i : Instr) (x : Result) : ResultKind (operationOf i) x ↔ ResultKind i x := by
  cases i with
  | push f =>
    obtain ⟨addr, b1, body, -, -, hop⟩ | ⟨-, -, hop⟩ | ⟨-, hop⟩ := operationOf_push_cases f
    · rw [hop]
      exact resultKind_of_isClass (isClass_classify f.id addr b1 body) x
    · rw [hop]
    · rw [hop]
  | _ => rfl

theorem Effect.resultKind {i : Instr} {h h' : Handler} {x : Result} (he : Effect i h h' x) : ResultKind i x := by
  cases he with
  | enc | abort => rfl
  | ffNone | cfNone | fc => exact .inl rfl
  | sfMsg | cfMsg => exact .inr (.inl ⟨_, rfl⟩)
  | sfErr | ffErr | cfIdle | cfUnexpected | cfOverrun | unk47 | unk8F | pushShort => exact .inr (.inr ⟨_, rfl⟩)

/-- Under the invariant every frame class goes on (R27, R41). -/
theorem Effect.exists_of_isClass {i : Instr} {h : Handler} (hclass : isClass i = true)
    (hinv : ∀ r, h = .receiving r → r.Inv) : ∃ h' x, Effect i h h' x := by
  cases i with
  | sf id addr dl body => exact Effect.exists_sf id addr dl body h
  | ff id addr hi body => exact Effect.exists_ff id addr hi body h
  | cf id addr sn body =>
    obtain he | ⟨r, rfl, -, -, missing⟩ := Effect.exists_cf_or_missing_byte id addr sn body h
    · exact he
    · rw [memRead_all (receiveChunk_buffered body (hinv r rfl).buffered)] at missing
      cases missing
  | fc => exact ⟨_, _, .fc⟩
  | unk47 => exact ⟨_, _, .unk47⟩
  | unk8F => exact ⟨_, _, .unk8F⟩
  | push | enc | abort | rsvdOp3 => cases hclass

/-- R27, R100: under the invariant the operation behind a `PUSH` of a frame value has an effect. -/
theorem exists_effect_of_push {f : Frame} {s : State} (hf : f.IsFrame) (hs : s.Inv) :
    ∃ h x, Effect (operationOf (.push f)) s.handler h x := by
  obtain ⟨addr, b1, body, -, -, hop⟩ | ⟨-, short, hop⟩ | ⟨hf', -⟩ := operationOf_push_cases f
  · rw [hop]
    exact Effect.exists_of_isClass (isClass_classify _ _ _ _) (State.inv_iff.1 hs)
  · rw [hop]
    exact ⟨_, _, .pushShort hf short⟩
  · exact absurd hf hf'

/-! ### How an effect moves the handler -/

/-- R29: from Idle only a first frame leads to Receiving. -/
theorem Effect.of_idle_receiving {i : Instr} {r : Reassembly} {x : Result} (he : Effect i .idle (.receiving r) x) :
    (∃ id addr hi body, i = .ff id addr hi body) ∧ x = .none := by
  cases he
  exact ⟨⟨_, _, _, _, rfl⟩, rfl⟩

/-- R29: only a first frame and a consecutive frame with the expected number change the registers. -/
theorem Effect.of_receiving_receiving {i : Instr} {r r' : Reassembly} {x : Result}
    (he : Effect i (.receiving r) (.receiving r') x) (hne : r' ≠ r) :
    ((∃ id addr hi body, i = .ff id addr hi body) ∧ x = .none) ∨ ∃ id addr body, i = .cf id addr r.expSeq body := by
  cases he with
  | ffNone => exact .inl ⟨⟨_, _, _, _, rfl⟩, rfl⟩
  | cfOverrun | cfNone => exact .inr ⟨_, _, _, rfl⟩
  | _ => exact absurd rfl hne

/-- R29: only `ABORT` and what completes a message, a single frame or a consecutive frame with the expected number, leave
Receiving. -/
theorem Effect.of_receiving_idle {i : Instr} {r : Reassembly} {x : Result} (he : Effect i (.receiving r) .idle x) :
    i = .abort ∨ ((∃ m, x = .msg m) ∧
      ((∃ id addr dl body, i = .sf id addr dl body) ∨ ∃ id addr body, i = .cf id addr r.expSeq body)) := by
  cases he with
  | sfMsg => exact .inr ⟨⟨_, rfl⟩, .inl ⟨_, _, _, _, rfl⟩⟩
  | cfMsg => exact .inr ⟨⟨_, rfl⟩, .inr ⟨_, _, _, rfl⟩⟩
  | abort => exact .inl rfl

/-- R24: a consecutive frame that ends with `None` advances the expected number by one and keeps the message's registers. -/
theorem Effect.of_cf_none {id : Config.Id} {addr : Byte} {sn : Nibble} {body : List Byte} {r : Reassembly} {h : Handler}
    (he : Effect (.cf id addr sn body) (.receiving r) h .none) : h = .receiving (advanceSeq (receiveChunk r body)) := by
  cases he
  rfl

/-! ### Steps -/

/-- What a step that goes on can do: nothing, a reset, or the oldest pending command (R50, R138, R150). -/
theorem step_cases {s t : State} (ht : step s = .next t) :
    (s.pending = [] ∧ t = s) ∨
    (∃ rest, s.pending = .reset :: rest ∧ t = clearHandler { s with pending := rest }) ∨
    ∃ c rest i, s.pending = .command c :: rest ∧ decode c = .ok i ∧ exec i { s with pending := rest } = .next t := by
  unfold step takeInput at ht
  match hp : s.pending with
  | [] => simp only [hp] at ht; exact .inl ⟨rfl, (Host.Outcome.next.inj ht).symm⟩
  | .reset :: rest => simp only [hp] at ht; exact .inr (.inl ⟨rest, rfl, (Host.Outcome.next.inj ht).symm⟩)
  | .command c :: rest =>
    simp only [hp, execInput, execCommand] at ht
    split at ht
    · next i hd => exact .inr (.inr ⟨c, rest, i, rfl, hd, ht⟩)
    · cases ht

theorem decode_pushCommand_ok {f : Frame} {i : Instr} (h : decode (pushCommand f) = .ok i) : i = .push f := by
  rw [decode, if_pos (show (pushCommand f).op = 0 from rfl)] at h
  split at h
  · exact (Except.ok.inj h).symm
  · cases h

/-- A step on a pushed frame runs an effect of what the frame stands for (R74, R100). -/
theorem step_push_cases {s t : State} {f : Frame} {rest : List HostInput}
    (hp : s.pending = .command (pushCommand f) :: rest) (ht : step s = .next t) :
    ∃ h x, Effect (operationOf (.push f)) s.handler h x ∧
      t = deliver x (setHandler h { s with pending := rest }) := by
  obtain ⟨hp', -⟩ | ⟨rest', hp', -⟩ | ⟨c, rest', i, hp', hdecode, hexec⟩ := step_cases ht
  · rw [hp] at hp'; cases hp'
  · rw [hp] at hp'; cases hp'
  · rw [hp] at hp'; cases hp'
    obtain rfl := decode_pushCommand_ok hdecode
    exact exec_next_iff.1 hexec

/-- Results are only added to (R27). -/
theorem step_results_prefix {s t : State} (ht : step s = .next t) : s.results <+: t.results := by
  obtain ⟨-, rfl⟩ | ⟨rest, -, rfl⟩ | ⟨c, rest, i, -, -, hexec⟩ := step_cases ht
  · exact List.prefix_rfl
  · exact List.prefix_append _ _
  · obtain ⟨h, x, -, rfl⟩ := exec_next_iff.1 hexec
    exact List.prefix_append _ _

/-- A run that goes on goes on with its first step. -/
theorem run_succ_next {k : Nat} {s t : State} (ht : Host.Core.run Sys2Proof.core (k + 1) s = .next t) :
    ∃ u, step s = .next u ∧ Host.Core.run Sys2Proof.core k u = .next t := by
  cases hs : step s with
  | next u => exact ⟨u, rfl, run_of_next k hs ▸ ht⟩
  | fault e => rw [run_of_fault k hs] at ht; cases ht
  | refused e => rw [run_of_refused k hs] at ht; cases ht

theorem run_results_prefix {k : Nat} {s t : State} (ht : Host.Core.run Sys2Proof.core k s = .next t) :
    s.results <+: t.results := by
  induction k generalizing s with
  | zero => rw [run_zero] at ht; exact Host.Outcome.next.inj ht ▸ List.prefix_rfl
  | succ k ih =>
    obtain ⟨u, hu, hrun⟩ := run_succ_next ht
    exact (step_results_prefix hu).trans (ih hrun)

end Sys2Proof.Machine
end

section
/-! # The encoder's frames

Each of the three builders makes a frame value, and the frame decodes to the builder's own class. -/

namespace Sys2Proof.Machine

/-- The data byte 1 that an encoder writes for the type `k` and the field `low` (R61). -/
theorem or_eq_packNibbles {k m : Nat} (hk : k < 16) (hm : m < 16) :
    BitVec.ofNat 8 (16 * k) ||| BitVec.ofNat 8 m = packNibbles (BitVec.ofNat 4 k) (BitVec.ofNat 4 m) := by
  rw [or_eq_add k m hk hm]
  apply BitVec.eq_of_toNat_eq
  simp only [BitVec.toNat_ofNat, packNibbles_toNat]
  omega

theorem packNibbles_div (k low : Nibble) : (packNibbles k low).toNat / 16 = k.toNat := by
  have := low.isLt
  rw [packNibbles_toNat]
  omega

section Classes

variable (id : Config.Id) (addr : Byte) (low : Nibble) (body : List Byte)

theorem classify_type_zero : classify id addr (packNibbles 0 low) body = .sf id addr low body := by
  rw [classify_eq, packNibbles_div, lowNibble_pack]
  rfl

theorem classify_type_one : classify id addr (packNibbles 1 low) body = .ff id addr low body := by
  rw [classify_eq, packNibbles_div, lowNibble_pack]
  rfl

theorem classify_type_two : classify id addr (packNibbles 2 low) body = .cf id addr low body := by
  rw [classify_eq, packNibbles_div, lowNibble_pack]
  rfl

end Classes

theorem encSF_isFrame (id : Config.Id) (a : Byte) {payload : List Byte} (h : payload.length < 7) :
    (encSF id a payload).IsFrame := by
  refine ⟨rfl, ?_⟩
  simp only [encSF, Config.frameMax]
  omega

theorem decodeFrame_encSF (id : Config.Id) (a : Byte) {payload : List Byte} (h : payload.length < 7) :
    decodeFrame (encSF id a payload) = .ok (.sf id a (BitVec.ofNat 4 payload.length) payload) := by
  have hb1 := or_eq_packNibbles (k := 0) (m := payload.length) (by omega) (by omega)
  rw [decodeFrame_of_two_bytes (encSF_isFrame id a h) rfl, hb1]
  exact congrArg _ (classify_type_zero _ _ _ _)

theorem encFF_isFrame (id : Config.Id) (a : Byte) {payload : List Byte} (h : 7 ≤ payload.length) :
    (encFF id a payload.length payload).IsFrame := by
  simp only [Frame.IsFrame, encFF, slice, ffChunk, Config.frameMax, List.drop_zero, List.length_append,
    List.length_cons, List.length_nil, List.length_take]
  omega

theorem decodeFrame_encFF (id : Config.Id) (a : Byte) {payload : List Byte} (h : 7 ≤ payload.length) :
    decodeFrame (encFF id a payload.length payload) =
      .ok (.ff id a (lengthHigh (BitVec.ofNat 12 payload.length))
        (lengthLow (BitVec.ofNat 12 payload.length) :: payload.take 5)) := by
  generalize hhi : lengthHigh (BitVec.ofNat 12 payload.length) = hi
  have hb1 : 0x10#8 ||| hi.setWidth 8 = packNibbles 1 hi := by
    have := or_eq_packNibbles (k := 1) (m := hi.toNat) (by omega) hi.isLt
    simpa using this
  rw [decodeFrame_of_two_bytes (encFF_isFrame id a h) rfl, hhi, hb1]
  exact congrArg _ (classify_type_one _ _ _ _)

theorem encCF_isFrame (id : Config.Id) (a : Byte) (j : Nat) {chunk : List Byte} (h : chunk.length ≤ 6) :
    (encCF id a j chunk).IsFrame := by
  refine ⟨rfl, ?_⟩
  simp only [encCF, Config.frameMax]
  omega

theorem decodeFrame_encCF (id : Config.Id) (a : Byte) (j : Nat) {chunk : List Byte} (h : chunk.length ≤ 6) :
    decodeFrame (encCF id a j chunk) = .ok (.cf id a (BitVec.ofNat 4 (j % 16)) chunk) := by
  have hb1 := or_eq_packNibbles (k := 2) (m := j % 16) (by omega) (by omega)
  rw [decodeFrame_of_two_bytes (encCF_isFrame id a j h) rfl, hb1]
  exact congrArg _ (classify_type_two _ _ _ _)

/-- The loop of R80 emits consecutive frames of at most 6 payload bytes only. -/
theorem exists_encCF_of_mem_encLoop {id : Config.Id} {a : Byte} {payload : List Byte} {fuel off j : Nat} {f : Frame}
    (hf : f ∈ encLoop id a payload fuel off j) : ∃ k chunk, chunk.length ≤ 6 ∧ f = encCF id a k chunk := by
  induction fuel generalizing off j with
  | zero => cases hf
  | succ fuel ih =>
    rw [encLoop] at hf
    split at hf
    · obtain rfl | hf := List.mem_cons.1 hf
      · refine ⟨j, _, ?_, rfl⟩
        simp only [slice, cfChunk, List.length_drop, List.length_take]
        omega
      · exact ih hf
    · cases hf

/-- The three builders make every frame of `ENC` (R80). -/
theorem mem_encFrames_cases {id : Config.Id} {dest : Nat} {payload : List Byte} {f : Frame}
    (hf : f ∈ encFrames id dest payload) :
    (payload.length < 7 ∧ f = encSF id (maskAddr dest) payload) ∨
    (7 ≤ payload.length ∧ f = encFF id (maskAddr dest) payload.length payload) ∨
    ∃ k chunk, chunk.length ≤ 6 ∧ f = encCF id (maskAddr dest) k chunk := by
  rw [encFrames, sfLimit] at hf
  split at hf
  · next h => exact .inl ⟨h, List.mem_singleton.1 hf⟩
  · next h =>
    obtain rfl | hf := List.mem_cons.1 hf
    · exact .inr (.inl ⟨by omega, rfl⟩)
    · exact .inr (.inr (exists_encCF_of_mem_encLoop hf))

end Sys2Proof.Machine
end

section
/-! # The obligations of spec/10_state.md -/

namespace Sys2Proof.Machine

/-! ### The invariant -/

/-- Settles O38: by `step_cases` a step is nothing, a reset, or an effect, and effects keep the invariant. -/
theorem stepKeepsTheInvariant : Obligations.StepKeepsTheInvariant := by
  intro s t hs ht
  obtain ⟨-, rfl⟩ | ⟨rest, -, rfl⟩ | ⟨c, rest, i, -, -, hexec⟩ := step_cases ht
  · exact hs
  · exact State.inv_iff.2 fun r hr => by cases hr
  · obtain ⟨h, x, he, rfl⟩ := exec_next_iff.1 hexec
    exact State.inv_iff.2 (he.keeps_inv (State.inv_iff.1 hs))

/-- Settles O39: Idle holds no register that could break it. -/
theorem resetStateMeetsTheInvariant : Obligations.ResetStateMeetsTheInvariant :=
  State.inv_iff.2 fun r hr => by cases hr

/-- Settles O40: the cells' addresses are those below `rx_count`, and a 12-bit count is at most 4095. -/
theorem theInvariantBoundsTheBuffer : Obligations.TheInvariantBoundsTheBuffer := by
  intro s r hs hr
  have hinv : r.Inv := State.inv_iff.1 hs r hr
  have hsize : r.rxCount.toNat ≤ Config.bufSize := Nat.le_of_lt_succ r.rxCount.isLt
  exact ⟨⟨_, hinv.read, hinv.bytes_length⟩, fun a ha => readByte_eq_none hinv.buffered ha, hinv.bounded,
    Memory.wf_of_keys hinv.buffered hsize⟩

/-- Settles O27, field by field. -/
theorem resetStateIsIdle : Obligations.ResetStateIsIdle := ⟨rfl, rfl, rfl⟩

/-! ### The result and the effect of every operation -/

/-- Settles O18: under the invariant the frame's class has an effect, whose result is a frame's. -/
theorem pushCompletes : Obligations.PushCompletes := by
  intro f s hf hs
  obtain ⟨h, x, he⟩ := exists_effect_of_push hf hs
  exact ⟨h, x, exec_next_iff.2 ⟨h, x, he, rfl⟩, (resultKind_operationOf (.push f) x).1 he.resultKind⟩

/-- Settles O34: an effect adds its one result, whose kind is the operation's. -/
theorem oneResultPerOperation : Obligations.OneResultPerOperation := by
  refine ⟨fun i s t ht => ?_, fun s t rest hp ht => ?_⟩
  · obtain ⟨h, x, he, rfl⟩ := exec_next_iff.1 ht
    have hkind := (resultKind_operationOf i x).1 he.resultKind
    exact ⟨rfl, x, rfl, by cases i <;> exact hkind⟩
  · obtain ⟨hp', -⟩ | ⟨rest', -, rfl⟩ | ⟨c, rest', i, hp', -⟩ := step_cases ht
    · rw [hp] at hp'; cases hp'
    · rfl
    · rw [hp] at hp'; cases hp'

/-- Settles O37: effects speak of the handler alone, so the same effect is there in the other state. -/
theorem effectsDependOnTheHandlerAlone : Obligations.EffectsDependOnTheHandlerAlone := by
  intro i s s' t hh ht
  obtain ⟨h, x, he, rfl⟩ := exec_next_iff.1 ht
  exact ⟨deliver x (setHandler h s'), x, exec_next_iff.2 ⟨h, x, hh ▸ he, rfl⟩, rfl, rfl, rfl⟩

/-! ### How the handler moves -/

/-- Settles O36: the effects that change the handler, and the steps that are no instruction. -/
theorem onlyTheseOperationsMoveTheHandler : Obligations.OnlyTheseOperationsMoveTheHandler := by
  refine ⟨fun i s t ht => ?_, fun s t ht hne => ?_⟩
  · obtain ⟨h, x, he, rfl⟩ := exec_next_iff.1 ht
    refine ⟨fun r hs hh => ?_, fun r r' hs hh hne => ?_, fun r hs hh => ?_⟩
    all_goals
      rw [deliver_handler, setHandler_handler] at hh
      rw [hs, hh] at he
    · obtain ⟨hff, rfl⟩ := he.of_idle_receiving
      exact ⟨hff, rfl⟩
    · obtain ⟨hff, rfl⟩ | hcf := he.of_receiving_receiving hne
      · exact .inl ⟨hff, rfl⟩
      · exact .inr hcf
    · obtain habort | ⟨⟨m, rfl⟩, hop⟩ := he.of_receiving_idle
      · exact .inl (eq_of_operationOf_eq rfl habort)
      · exact .inr ⟨⟨m, rfl⟩, hop⟩
  · obtain ⟨-, rfl⟩ | ⟨rest, hp, rfl⟩ | hcommand := step_cases ht
    · exact absurd rfl hne
    · exact .inl ⟨rest, hp, rfl⟩
    · exact .inr hcommand

/-! ### Counting accepted consecutive frames -/

/-- R24, R25 (c), from any expected number. -/
theorem run_of_accepted_cfs (fs : List Frame) {s t : State} {r : Reassembly} {rest : List HostInput}
    (hcf : ∀ f ∈ fs, ∃ id addr sn body, decodeFrame f = .ok (.cf id addr sn body))
    (hs : s.handler = .receiving r) (hp : s.pending = pushAll fs ++ rest)
    (ht : Host.Core.run Sys2Proof.core fs.length s = .next t)
    (hres : t.results = s.results ++ List.replicate fs.length .none) :
    t.pending = rest ∧ ∃ r' : Reassembly, t.handler = .receiving r' ∧
      r'.expSeq.toNat = (r.expSeq.toNat + fs.length) % 16 ∧
      r'.id = r.id ∧ r'.addr = r.addr ∧ r'.declaredLength = r.declaredLength ∧
      r.rxCount.toNat ≤ r'.rxCount.toNat := by
  induction fs generalizing s r with
  | nil =>
    rw [List.length_nil, run_zero] at ht
    obtain rfl := Host.Outcome.next.inj ht
    exact ⟨hp, r, hs, (Nat.mod_eq_of_lt r.expSeq.isLt).symm, rfl, rfl, rfl, le_rfl⟩
  | cons f fs ih =>
    obtain ⟨id, addr, sn, body, hd⟩ := hcf f List.mem_cons_self
    obtain ⟨u, hu, hrun⟩ := run_succ_next ht
    obtain ⟨h, x, he, rfl⟩ := step_push_cases hp hu
    rw [operationOf_push_of_ok hd, hs] at he
    have hpre : s.results ++ [x] <+: t.results := run_results_prefix hrun
    rw [hres, List.prefix_append_right_inj] at hpre
    obtain rfl : x = .none := List.eq_of_mem_replicate (hpre.subset List.mem_cons_self)
    obtain ⟨hpend, r', hr', hseq, hid, haddr, hdl, hcount⟩ :=
      ih (fun g hg => hcf g (List.mem_cons_of_mem f hg)) he.of_cf_none rfl hrun
        (by rw [hres]; simp [List.replicate_succ])
    refine ⟨hpend, r', hr', ?_, hid, haddr, hdl, ?_⟩
    · rw [hseq, advanceSeq_expSeq, receiveChunk_expSeq, ← nextSeq, nextSeq_toNat, List.length_cons]
      omega
    · rw [advanceSeq_rxCount, receiveChunk_rxCount_toNat] at hcount
      omega

/-- Settles O12, by induction on the frames from any expected number (`run_of_accepted_cfs`). -/
theorem sequenceNumberCountsAcceptedFrames : Obligations.SequenceNumberCountsAcceptedFrames := by
  intro fs s t r rest hcf hs hseq hp ht hres
  have := run_of_accepted_cfs fs hcf hs hp ht hres
  rwa [hseq] at this

/-! ### The encoder's frames -/

/-- Settles O23: each of the three builders makes a frame value, and it decodes to the builder's own class. -/
theorem encEmitsFramesOfTypesZeroToTwo : Obligations.EncEmitsFramesOfTypesZeroToTwo := by
  intro id dest payload _ f hf
  rw [← maskAddr_eq]
  obtain ⟨h, rfl⟩ | ⟨h, rfl⟩ | ⟨k, chunk, h, rfl⟩ := mem_encFrames_cases hf
  · obtain ⟨hlen, hmax⟩ := encSF_isFrame id (maskAddr dest) h
    exact ⟨rfl, hlen, Nat.le_add_left 2 _, hmax, _, _, .inl (decodeFrame_encSF id _ h)⟩
  · obtain ⟨hlen, hmax⟩ := encFF_isFrame id (maskAddr dest) h
    exact ⟨rfl, hlen, le_min (by omega) (by omega), hmax, _, _, .inr (.inl (decodeFrame_encFF id _ h))⟩
  · obtain ⟨hlen, hmax⟩ := encCF_isFrame id (maskAddr dest) k h
    exact ⟨rfl, hlen, Nat.le_add_left 2 _, hmax, _, _, .inr (.inr (decodeFrame_encCF id _ k h))⟩

end Sys2Proof.Machine
end

section
/-! # The obligations of spec/20_memory.md -/

namespace Sys2Proof.Machine

/-! ### What a consecutive frame stores -/

/-- The append writes the chunk's bytes at and after the old `rx_count` (R41). -/
theorem readByte_receiveChunk_stored (r : Reassembly) (body : List Byte) {k : Nat}
    (hk : k < (cfChunkOf r body).length) :
    readByte (receiveChunk r body).buf (r.rxCount.toNat + k) = (cfChunkOf r body)[k]? := by
  rw [receiveChunk, appendChunk_buf, readByte_memWrite, if_pos (by omega), Nat.add_sub_cancel_left]

/-- The append keeps every byte outside the chunk's own addresses (R41). -/
theorem readByte_receiveChunk_kept (r : Reassembly) (body : List Byte) {a : Nat}
    (ha : a < r.rxCount.toNat ∨ r.rxCount.toNat + (cfChunkOf r body).length ≤ a) :
    readByte (receiveChunk r body).buf a = readByte r.buf a := by
  rw [receiveChunk, appendChunk_buf, readByte_memWrite, if_neg (by omega)]

/-- R104, R133: an accepted consecutive frame that leaves Receiving leaves the buffer its append wrote, whether the
message goes on or the count is past the declared length. -/
theorem Effect.buf_of_accepted_cf {id : Config.Id} {addr : Byte} {body : List Byte} {r r' : Reassembly} {x : Result}
    (he : Effect (.cf id addr r.expSeq body) (.receiving r) (.receiving r') x) :
    r'.buf = (receiveChunk r body).buf := by
  generalize hsn : r.expSeq = sn at he
  cases he with
  | cfUnexpected unexpected => exact absurd hsn.symm unexpected
  | cfOverrun | cfNone => rfl

/-- Settles O8: the buffer is the one the append wrote, which holds the chunk at its own addresses and the old bytes
elsewhere. -/
theorem consecutiveFrameStoresOnlyItsChunk : Obligations.ConsecutiveFrameStoresOnlyItsChunk := by
  rintro id addr body s t r r' hs ht hr' chunk rfl
  obtain ⟨h, x, he, rfl⟩ := exec_next_iff.1 ht
  rw [deliver_handler, setHandler_handler] at hr'
  rw [hs, hr'] at he
  rw [he.buf_of_accepted_cf]
  exact ⟨fun _ => readByte_receiveChunk_stored r body, fun _ => readByte_receiveChunk_kept r body⟩

/-! ### No fault -/

/-- An instruction whose operation has an effect goes on along it. -/
theorem exec_ne_fault_of_exists_effect {i : Instr} {s : State} (e : Fault)
    (he : ∃ h x, Effect (operationOf i) s.handler h x) : exec i s ≠ .fault e := by
  obtain ⟨h, x, he⟩ := he
  rw [exec_next_iff.2 ⟨h, x, he, rfl⟩]
  nofun

/-- Settles O41: under the invariant a frame has an effect, since no byte of a completed message is missing; what cannot
be presented is refused, which is no fault. -/
theorem noFaultUnderTheInvariant : Obligations.NoFaultUnderTheInvariant := by
  intro i s e hs
  cases i with
  | push f =>
    by_cases hf : f.IsFrame
    · exact exec_ne_fault_of_exists_effect e (exists_effect_of_push hf hs)
    · rw [exec, execPush, if_neg hf]
      nofun
  | enc id dest payload =>
    by_cases fits : PayloadFits payload
    · exact exec_ne_fault_of_exists_effect e ⟨_, _, .enc fits⟩
    · rw [exec, execEnc, if_neg fits]
      nofun
  | abort => exact exec_ne_fault_of_exists_effect e ⟨_, _, .abort⟩
  | rsvdOp3 => nofun
  | sf | ff | cf | fc | unk47 | unk8F =>
    exact exec_ne_fault_of_exists_effect e (Effect.exists_of_isClass rfl (State.inv_iff.1 hs))

/-! ### One operation per step -/

/-- A step takes the oldest pending command off the list and runs it (R50, R52). -/
theorem step_of_pending_command {s : State} {c : Command} {rest : List HostInput}
    (hp : s.pending = .command c :: rest) : step s = execCommand c { s with pending := rest } := by
  rw [step, takeInput, hp]
  rfl

theorem execCommand_of_decode_ok {c : Command} {i : Instr} (hd : decode c = .ok i) (s : State) :
    execCommand c s = exec i s := by
  rw [execCommand, hd]

/-- Settles O29: the step runs the command, and the command its instruction. -/
theorem stepRunsTheDecodedCommand : Obligations.StepRunsTheDecodedCommand := by
  intro s c i rest hp hd
  rw [step_of_pending_command hp, execCommand_of_decode_ok hd]

end Sys2Proof.Machine
end

section
/-! # Codes and what is read from them

The FRAME rows' tests as numbers, the class of every data byte 1 with its way back to the byte, and what the command
decoder reads or refuses. -/

namespace Sys2Proof.Machine

/-! ### The FRAME rows' tests -/

/-- A row with mask `0xF0` tests the type of byte 1 (R61, R74). -/
theorem rowSelects_type (k : Nibble) (b1 : Byte) :
    rowSelects (packNibbles k 0) 0xF0 b1 = decide (b1.toNat / 16 = k.toNat) := by
  rw [rowSelects_F0, Bool.eq_iff_iff, beq_iff_eq, decide_eq_true_eq, ← BitVec.toNat_inj, highNibble_toNat]

/-- The last FRAME row tests bit 7 of byte 1 (R74). -/
theorem rowSelects_80 (b1 : Byte) : rowSelects 0x80 0x80 b1 = decide (128 ≤ b1.toNat) := by
  have hmask : b1 &&& 0x80 = if b1.getLsbD 7 then 0x80 else 0 := BitVec.and_twoPow b1 7
  have hbit : b1.getLsbD 7 = decide (128 ≤ b1.toNat) := b1.msb_eq_getLsbD_last.symm.trans b1.msb_eq_decide
  rw [rowSelects, hmask, ← hbit]
  cases b1.getLsbD 7 <;> rfl

/-! ### The class of a data byte 1 -/

section Classes

variable (id : Config.Id) (addr : Byte) (body : List Byte)

theorem classify_type_three (low : Nibble) : classify id addr (packNibbles 3 low) body = .fc id addr low body := by
  rw [classify_eq, packNibbles_div, lowNibble_pack]
  rfl

theorem classify_type_four_to_seven (low : BitVec 6) :
    classify id addr ((1 : BitVec 2) ++ low) body = .unk47 id addr low body := by
  have hlow := low.isLt
  have hb1 : ((1 : BitVec 2) ++ low).toNat = 64 + low.toNat := append_toNat _ _
  rw [classify_eq, hb1, if_neg (by omega), if_neg (by omega), if_neg (by omega), if_neg (by omega),
    if_pos (by omega), BitVec.extractLsb'_append_eq_right]

theorem classify_type_from_eight (low : BitVec 7) :
    classify id addr ((1 : BitVec 1) ++ low) body = .unk8F id addr low body := by
  have hlow := low.isLt
  have hb1 : ((1 : BitVec 1) ++ low).toNat = 128 + low.toNat := append_toNat _ _
  rw [classify_eq, hb1, if_neg (by omega), if_neg (by omega), if_neg (by omega), if_neg (by omega),
    if_neg (by omega), BitVec.extractLsb'_append_eq_right]

/-- A class fits when the frame it came from does (R26). -/
theorem wellFormed_classify (b1 : Byte) : (classify id addr b1 body).wellFormed = decide (BodyFits body) := by
  rw [classify_eq]
  split_ifs <;> rfl

/-- A byte of type `k` is `k` on top of its own low nibble (R61). -/
theorem packNibbles_lowNibble {b1 : Byte} {k : Nibble} (h : b1.toNat / 16 = k.toNat) :
    packNibbles k (lowNibble b1) = b1 := by
  rw [← BitVec.eq_of_toNat_eq ((highNibble_toNat b1).trans h), pack_split]

/-- A byte is its row's fixed bits on top of its open bits. -/
theorem append_extractLsb'_low {n m : Nat} {x : BitVec n} {b1 : BitVec (n + m)} (h : b1.toNat / 2 ^ m = x.toNat) :
    x ++ b1.extractLsb' 0 m = b1 := by
  apply BitVec.eq_of_toNat_eq
  rw [append_toNat, BitVec.extractLsb'_toNat, Nat.shiftRight_zero, ← h, Nat.div_add_mod']

/-- R64: the code of a frame's class has the frame's own byte 1. -/
theorem encode_classify (b1 : Byte) :
    encode (classify id addr b1 body) = .frame (frameOf id (addr :: b1 :: body)) := by
  have hlt := b1.isLt
  rw [classify_eq]
  split_ifs with h0 h1 h2 h3 h7
  · rw [encode, packNibbles_lowNibble h0]
  · rw [encode, packNibbles_lowNibble h1]
  · rw [encode, packNibbles_lowNibble h2]
  · rw [encode, packNibbles_lowNibble h3]
  · rw [encode, append_extractLsb'_low (n := 2) (show b1.toNat / 2 ^ 6 = 1 by omega)]
  · rw [encode, append_extractLsb'_low (n := 1) (show b1.toNat / 2 ^ 7 = 1 by omega)]

end Classes

/-! ### Frames -/

theorem frameOf_data {f : Frame} (hf : f.IsFrame) : frameOf f.id f.data = f := by
  obtain ⟨hcount, -⟩ := hf
  rw [frameOf, hcount]

theorem isFrame_of_decodeFrame_ok {f : Frame} {i : Instr} (hd : decodeFrame f = .ok i) : f.IsFrame := by
  by_contra hf
  rw [decodeFrame_of_not_isFrame hf] at hd
  cases hd

/-- A frame with a byte 1 is read as the class of that byte. -/
theorem decodeCode_frameOf {id : Config.Id} {addr b1 : Byte} {body : List Byte} {i : Instr} (hfits : BodyFits body)
    (hclass : classify id addr b1 body = i) : decodeCode (.frame (frameOf id (addr :: b1 :: body))) = .ok i :=
  hclass ▸ decodeFrame_of_two_bytes ⟨rfl, hfits⟩ rfl

/-! ### Commands -/

section Commands

variable {c : Command}

theorem decode_of_op_zero (hop : c.op = 0) :
    decode c = if c.frame.IsFrame then .ok (.push c.frame) else .error .notAFrame := by
  rw [decode, if_pos hop]

theorem decode_of_op_one (hop : c.op = 1) :
    decode c = if PayloadFits c.payload then .ok (.enc c.id c.dest c.payload) else .error .payloadTooLong := by
  rw [decode, if_neg (by rw [hop]; decide), if_pos hop]

theorem decode_pushCommand {f : Frame} (hf : f.IsFrame) : decode (pushCommand f) = .ok (.push f) :=
  (decode_of_op_zero rfl).trans (if_pos hf)

theorem decode_encCommand (id : Config.Id) (dest : Nat) {payload : List Byte} (hfits : PayloadFits payload) :
    decode (encCommand id dest payload) = .ok (.enc id dest payload) :=
  (decode_of_op_one rfl).trans (if_pos hfits)

/-- What cannot be presented is refused under its own name (R70, R87). -/
theorem execCommand_of_decode_error {e : Reject} (hd : decode c = .error e) (s : State) :
    execCommand c s = .refused (refusalOf e) := by
  rw [execCommand, hd]

end Commands

end Sys2Proof.Machine
end

section
/-! # The obligations of spec/30_encoding.md -/

namespace Sys2Proof.Machine

/-! ### Encoding and decoding -/

/-- Settles O42, row by row: a frame class is read back from its byte 1, an operation from its code. -/
theorem decodeOfEncode : Obligations.DecodeOfEncode := by
  intro i hwf
  cases i with
  | sf id addr dl body => exact decodeCode_frameOf (of_decide_eq_true hwf) (classify_type_zero ..)
  | ff id addr hi body => exact decodeCode_frameOf (of_decide_eq_true hwf) (classify_type_one ..)
  | cf id addr sn body => exact decodeCode_frameOf (of_decide_eq_true hwf) (classify_type_two ..)
  | fc id addr low body => exact decodeCode_frameOf (of_decide_eq_true hwf) (classify_type_three ..)
  | unk47 id addr low body => exact decodeCode_frameOf (of_decide_eq_true hwf) (classify_type_four_to_seven ..)
  | unk8F id addr low body => exact decodeCode_frameOf (of_decide_eq_true hwf) (classify_type_from_eight ..)
  | push f => exact decode_pushCommand (of_decide_eq_true hwf)
  | enc id dest payload => exact decode_encCommand id dest (of_decide_eq_true hwf)
  | abort => rfl
  | rsvdOp3 => rfl

/-- Settles O43: the class of the frame fits because the frame does, and its code has the frame's bytes. -/
theorem encodeOfDecodedFrame : Obligations.EncodeOfDecodedFrame := by
  intro f hf hlen
  have ⟨hdata, hmax⟩ := hf
  match hd : f.data with
  | addr :: b1 :: body =>
    refine ⟨_, decodeFrame_of_two_bytes hf hd, ?_, ?_⟩
    · have hfits : BodyFits body := by
        rw [hd] at hdata
        exact hdata.trans_le hmax
      rw [wellFormed_classify, decide_eq_true hfits]
    · rw [encode_classify, ← hd, frameOf_data hf]
  | [] => rw [hd, List.length_nil] at hdata; omega
  | [_] => rw [hd, List.length_singleton] at hdata; omega

/-- Settles O44: each operation code that is not refused has passed the test that its operand fits. -/
theorem decodedCommandsAreWellFormed : Obligations.DecodedCommandsAreWellFormed := by
  intro c i hd
  rw [decode] at hd
  split_ifs at hd with h0 hframe h1 hfits h2 <;> obtain rfl := Except.ok.inj hd
  · exact decide_eq_true hframe
  · exact decide_eq_true hfits
  · rfl
  · rfl

/-- Settles O45: each row's test asks in which range byte 1 is as a number, and just one of the ranges has it. -/
theorem frameRowsPartitionByteOne : Obligations.FrameRowsPartitionByteOne := by
  intro b1
  have h0 : rowSelects 0x00 0xF0 b1 = decide (b1.toNat / 16 = 0) := rowSelects_type 0 b1
  have h1 : rowSelects 0x10 0xF0 b1 = decide (b1.toNat / 16 = 1) := rowSelects_type 1 b1
  have h2 : rowSelects 0x20 0xF0 b1 = decide (b1.toNat / 16 = 2) := rowSelects_type 2 b1
  have h3 : rowSelects 0x30 0xF0 b1 = decide (b1.toNat / 16 = 3) := rowSelects_type 3 b1
  simp only [← List.countP_eq_length_filter, List.countP_cons, List.countP_nil, h0, h1, h2, h3, rowSelects_C0,
    rowSelects_80, decide_eq_true_eq]
  split_ifs <;> omega

/-- Settles O46: each word is the code of its instruction, written out. -/
theorem wordsFromTheSpecDecode : Obligations.WordsFromTheSpecDecode :=
  ⟨decodeOfEncode (.sf 0x123 0x10 1 [0xAA]) rfl,
   decodeOfEncode (.ff 0x123 0x20 0 [0x0A, 0xA0, 0xA1, 0xA2, 0xA3, 0xA4]) rfl,
   decodeOfEncode (.cf 0x123 0x20 1 [0xA5, 0xA6, 0xA7, 0xA8, 0xA9]) rfl,
   decodeOfEncode (.fc 0x123 0x20 0 [0, 0]) rfl,
   decodeOfEncode (.unk47 0x123 0x20 0x0F []) rfl,
   decodeOfEncode (.unk8F 0x123 0x20 0x7F [1]) rfl,
   decodeOfEncode (.push emptyFrame) rfl, decodeOfEncode (.enc 0 0 []) rfl, decodeOfEncode .abort rfl,
   decodeOfEncode .rsvdOp3 rfl⟩

/-! ### What a step runs -/

/-- Settles O17: a `PUSH` stands for the class of its frame, and does what that does. -/
theorem pushRunsTheClassOfItsFrame : Obligations.PushRunsTheClassOfItsFrame := by
  intro f i s hd
  rw [← exec_operationOf (.push f), operationOf_push_of_ok hd]

/-- R74, R100: issuing a code runs the instruction it is the code of. -/
theorem execCommand_commandOf {c : Code} {i : Instr} (hd : decodeCode c = .ok i) (s : State) :
    execCommand (commandOf c) s = exec i s := by
  cases c with
  | command c => exact execCommand_of_decode_ok hd s
  | frame f =>
    rw [← pushRunsTheClassOfItsFrame f i s hd]
    exact execCommand_of_decode_ok (decode_pushCommand (isFrame_of_decodeFrame_ok hd)) s

/-- Settles O30: a pushed frame is one of the two forms of a code. -/
theorem stepRunsTheClassOfAPushedFrame : Obligations.StepRunsTheClassOfAPushedFrame := by
  intro s f i rest hp hd
  rw [step_of_pending_command hp]
  exact execCommand_commandOf (c := .frame f) hd _

theorem decodeTableWord_eq_some {nbits w : Nat} {i : Instr} (h : decodeTableWord nbits w = some i) :
    decodeCode (tableCode nbits w) = .ok i := by
  rw [decodeTableWord] at h
  split at h
  · next hd => rw [hd, Option.some.inj h]
  · cases h

/-- Settles O31: the placed word is issued first, and taking it leaves the state it was placed in. -/
theorem stepRunsThePlacedWord : Obligations.StepRunsThePlacedWord := by
  intro s nbits w i hw
  rw [step_of_pending_command (withFetchWord_pending s nbits w)]
  exact execCommand_commandOf (decodeTableWord_eq_some hw) s

/-- Settles O32: the operand fails the test of its own operation code. -/
theorem stepRefusesWhatCannotBePresented : Obligations.StepRefusesWhatCannotBePresented := by
  intro s c rest hp
  rw [step_of_pending_command hp]
  refine ⟨fun hop hbad => ?_, fun hop hlong => ?_⟩
  · have hf : ¬ c.frame.IsFrame := fun ⟨hcount, hmax⟩ => hbad.elim hmax.not_gt (· hcount)
    exact execCommand_of_decode_error ((decode_of_op_zero hop).trans (if_neg hf)) _
  · exact execCommand_of_decode_error ((decode_of_op_one hop).trans (if_neg hlong.not_ge)) _

/-! ### What the bytes of a frame decide -/

/-- Settles O9: an expected frame appends its chunk alone, and any other raises `SequenceError` whatever it holds. -/
theorem consecutiveFrameIgnoresAddressIdAndPadding : Obligations.ConsecutiveFrameIgnoresAddressIdAndPadding := by
  intro id id' addr addr' sn body body' s r hs hchunk
  by_cases hsn : sn = r.expSeq
  · have hregs : receiveChunk r body = receiveChunk r body' := congrArg (appendChunk r) hchunk
    subst hsn
    rw [exec, exec, execCf_expected hs, execCf_expected hs, hregs]
  · have herr (id addr body) : Effect (.cf id addr sn body) s.handler s.handler (.err .sequenceError) :=
      hs ▸ .cfUnexpected hsn
    rw [exec_of_effect (herr id addr body), exec_of_effect (herr id' addr' body')]

/-- Settles O19: the frame is the encoder's single frame of its payload, and `low` is the payload's length. -/
theorem pushOfAFullSingleFrame : Obligations.PushOfAFullSingleFrame := by
  intro id addr payload s hmin hmax
  have hdl : (BitVec.ofNat 4 payload.length).toNat = payload.length := Nat.mod_eq_of_lt (by omega)
  have hd := decodeFrame_encSF id addr (payload := payload) (by omega)
  rw [encSF, BitVec.zero_or] at hd
  refine (pushRunsTheClassOfItsFrame _ _ s hd).trans ?_
  rw [exec_of_effect (.sfMsg (by omega)), hdl, List.take_length,
    BitVec.setWidth_ofNat_of_le_of_lt (by omega) (by omega)]
  rfl

end Sys2Proof.Machine
end

section
/-! # The encoder's frame sequence

The loop of R80 turn by turn and in closed form, and the bytes the three builders write, as numbers. -/

namespace Sys2Proof.Machine

section Loop

variable (id : Config.Id) (a : Byte) (payload : List Byte)

/-- With no payload byte left the loop emits nothing more. -/
theorem encLoop_of_done {fuel off : Nat} (j : Nat) (h : payload.length ≤ off) :
    encLoop id a payload fuel off j = [] := by
  cases fuel with
  | zero => rfl
  | succ fuel => rw [encLoop, if_neg h.not_gt]

/-- A turn emits the next at most 6 bytes. It goes on 6 bytes further, since a turn that finds fewer is the last. -/
theorem encLoop_of_remaining (fuel : Nat) {off : Nat} (j : Nat) (h : off < payload.length) :
    encLoop id a payload (fuel + 1) off j =
      encCF id a j ((payload.drop off).take 6) :: encLoop id a payload fuel (off + 6) (j + 1) := by
  have hslice : slice payload off (off + min cfChunk (payload.length - off)) = (payload.drop off).take 6 := by
    rw [slice, List.drop_take, Nat.add_sub_cancel_left, List.take_eq_take_iff, List.length_drop, cfChunk]
    omega
  rw [encLoop, if_pos h, hslice]
  by_cases hfull : 6 ≤ payload.length - off
  · rw [cfChunk, min_eq_left hfull]
  · rw [encLoop_of_done id a payload _ (by rw [cfChunk]; omega), encLoop_of_done id a payload _ (by omega)]

theorem encLoop_ne_nil {fuel off : Nat} (j : Nat) (hrem : off < payload.length)
    (hfuel : payload.length - off ≤ fuel) : encLoop id a payload fuel off j ≠ [] := by
  obtain ⟨fuel, rfl⟩ := Nat.exists_eq_succ_of_ne_zero (show fuel ≠ 0 by omega)
  rw [encLoop_of_remaining id a payload fuel j hrem]
  exact List.cons_ne_nil _ _

/-- R80, R83: the `k`-th turn emits the bytes from offset `off + 6 k` on, under the number `j + k`. -/
theorem encLoop_eq_map {fuel off : Nat} (j : Nat) (hfuel : payload.length - off ≤ fuel) :
    encLoop id a payload fuel off j = (List.range ((payload.length - off + 5) / 6)).map fun k =>
      encCF id a (j + k) ((payload.drop (off + 6 * k)).take 6) := by
  induction fuel generalizing off j with
  | zero =>
    rw [encLoop, show (payload.length - off + 5) / 6 = 0 by omega]
    rfl
  | succ fuel ih =>
    by_cases h : off < payload.length
    · have hcount : (payload.length - off + 5) / 6 = (payload.length - (off + 6) + 5) / 6 + 1 := by omega
      rw [encLoop_of_remaining id a payload fuel j h, ih (j + 1) (by omega), hcount, List.range_succ_eq_map,
        List.map_cons, List.map_map]
      refine congrArg _ (List.map_congr_left fun k _ => ?_)
      rw [Function.comp_apply, Nat.succ_eq_add_one, show off + 6 * (k + 1) = off + 6 + 6 * k by omega,
        show j + (k + 1) = j + 1 + k by omega]
    · rw [encLoop_of_done id a payload j (by omega), show (payload.length - off + 5) / 6 = 0 by omega]
      rfl

end Loop

section Builders

variable (id : Config.Id) (dest : Nat) {payload : List Byte}

/-- The length of what can be presented to `ENC` is a 12-bit number (R87). -/
theorem length_ofNat_toNat (hmax : payload.length ≤ 4095) :
    (BitVec.ofNat 12 payload.length).toNat = payload.length := Nat.mod_eq_of_lt (by omega)

theorem encFrames_of_short (h : payload.length < 7) :
    encFrames id dest payload = [encSF id (maskAddr dest) payload] := if_pos h

theorem encFrames_of_long (h : 7 ≤ payload.length) :
    encFrames id dest payload = encFF id (maskAddr dest) payload.length payload
      :: encLoop id (maskAddr dest) payload payload.length 5 1 := if_neg h.not_gt

/-- R81 with its bytes as numbers. -/
theorem encSF_maskAddr : encSF id (maskAddr dest) payload =
    { id := id, length := payload.length + 2,
      data := BitVec.ofNat 8 (dest % 256) :: BitVec.ofNat 8 payload.length :: payload } := by
  rw [encSF, maskAddr_eq, BitVec.zero_or]
  rfl

/-- R82, R67 with the bytes as numbers. -/
theorem encFF_maskAddr (hmin : 7 ≤ payload.length) (hmax : payload.length ≤ 4095) :
    encFF id (maskAddr dest) payload.length payload =
      { id := id, length := 8,
        data := BitVec.ofNat 8 (dest % 256) :: BitVec.ofNat 8 (16 + payload.length / 256)
                  :: BitVec.ofNat 8 (payload.length % 256) :: payload.take 5 } := by
  have hlen := length_ofNat_toNat hmax
  have hhigh : (lengthHigh (BitVec.ofNat 12 payload.length)).setWidth 8 = BitVec.ofNat 8 (payload.length / 256) := by
    apply BitVec.eq_of_toNat_eq
    rw [BitVec.toNat_setWidth, BitVec.toNat_ofNat, lengthHigh_toNat, hlen]
  have hlow : lengthLow (BitVec.ofNat 12 payload.length) = BitVec.ofNat 8 (payload.length % 256) := by
    apply BitVec.eq_of_toNat_eq
    rw [BitVec.toNat_ofNat, lengthLow_toNat, hlen, Nat.mod_mod]
  rw [encFF, maskAddr_eq, hhigh, hlow, or_eq_add 1 _ (by omega) (by omega), min_eq_right (by omega)]
  rfl

/-- R83 with its bytes as numbers. -/
theorem encCF_maskAddr (j : Nat) (chunk : List Byte) : encCF id (maskAddr dest) j chunk =
    { id := id, length := chunk.length + 2,
      data := BitVec.ofNat 8 (dest % 256) :: BitVec.ofNat 8 (32 + j % 16) :: chunk } := by
  rw [encCF, maskAddr_eq, or_eq_add 2 _ (by omega) (by omega)]
  rfl

end Builders

end Sys2Proof.Machine
end

section
/-! # Pushing a frame sequence

The effects of a sequence of frames, one after another, and that a run along the pushes of these frames goes through
them. -/

namespace Sys2Proof.Machine

/-- `Effects fs h h' xs`: the frames `fs`, pushed in order, take the handler from `h` to `h'`, and frame by frame hand
over the results `xs`. -/
inductive Effects : List Frame → Handler → Handler → List Result → Prop
  | nil {h} : Effects [] h h []
  | cons {f fs i h h' h'' x xs} (decoded : decodeFrame f = .ok i) (first : Effect i h h' x)
      (others : Effects fs h' h'' xs) : Effects (f :: fs) h h'' (x :: xs)

/-- A step on a pushed frame goes along every effect of its class. -/
theorem step_of_push_effect {s : State} {f : Frame} {i : Instr} {rest : List HostInput} {h : Handler} {x : Result}
    (hp : s.pending = .command (pushCommand f) :: rest) (hd : decodeFrame f = .ok i) (he : Effect i s.handler h x) :
    step s = .next { handler := h, pending := rest, results := s.results ++ [x] } :=
  (stepRunsTheClassOfAPushedFrame s f i rest hp hd).trans (exec_of_effect he)

/-- A run along the pushes of a frame sequence goes along the effects of the frames, and takes these inputs alone. -/
theorem run_of_effects {fs : List Frame} {h h' : Handler} {xs : List Result} (he : Effects fs h h' xs) {s : State}
    {rest : List HostInput} (hs : s.handler = h) (hp : s.pending = pushAll fs ++ rest) :
    Host.Core.run Sys2Proof.core fs.length s =
      .next { handler := h', pending := rest, results := s.results ++ xs } := by
  induction he generalizing s with
  | nil =>
    subst hs hp
    rw [List.append_nil]
    rfl
  | cons decoded first others ih =>
    subst hs
    rw [List.length_cons, run_of_next _ (step_of_push_effect hp decoded first), ih rfl rfl, List.append_assoc]
    rfl

/-- What a message's frames hand over: `None` for every frame but the last, and the Message for the last (R89). -/
def messageResults (fs : List Frame) (m : Message) : List Result := List.replicate (fs.length - 1) .none ++ [.msg m]

theorem messageResults_singleton (f : Frame) (m : Message) : messageResults [f] m = [.msg m] := rfl

theorem messageResults_cons (f : Frame) {fs : List Frame} (m : Message) (h : fs ≠ []) :
    messageResults (f :: fs) m = .none :: messageResults fs m := by
  cases fs with
  | nil => exact absurd rfl h
  | cons g fs => rfl

end Sys2Proof.Machine
end

section
/-! # The decoder on the encoder's frames

What the registers hold while the frames of one encoded message come in, and the effects of these frames. -/

namespace Sys2Proof.Machine

/-- The Message that the frames of `ENC` come back as (R89). -/
def encodedMessage (id : Config.Id) (a : Byte) (payload : List Byte) : Message :=
  { id := id, addr := a, declaredLength := BitVec.ofNat 12 payload.length, data := payload }

/-- The registers when the first `off` payload bytes have come in and the `j`-th consecutive frame is the next. -/
structure Reassembly.Holds (r : Reassembly) (id : Config.Id) (a : Byte) (payload : List Byte) (off j : Nat) : Prop where
  id             : r.id = id
  addr           : r.addr = a
  declaredLength : r.declaredLength = BitVec.ofNat 12 payload.length
  rxCount        : r.rxCount.toNat = off
  buffered       : r.buf.map Prod.fst = List.range r.rxCount.toNat
  bytes          : r.buf.map Prod.snd = payload.take off
  expSeq         : r.expSeq = BitVec.ofNat 4 (j % 16)

variable {id : Config.Id} {a : Byte} {payload : List Byte}

/-- R67: the declared length is what its two parts assemble to. -/
theorem assembleLength_lengthHigh_lengthLow (n : Len) : assembleLength (lengthHigh n) (lengthLow n) = n := by
  apply BitVec.eq_of_toNat_eq
  rw [assembleLength_toNat, lengthHigh_toNat, lengthLow_toNat, Nat.div_add_mod]

/-- R102 on R81: a single frame that `ENC` built returns its message. -/
theorem effect_encSF (id : Config.Id) (a : Byte) (h : Handler) (hmin : 1 ≤ payload.length)
    (hshort : payload.length < 7) :
    Effect (.sf id a (BitVec.ofNat 4 payload.length) payload) h .idle (.msg (encodedMessage id a payload)) := by
  have hdl : (BitVec.ofNat 4 payload.length).toNat = payload.length := Nat.mod_eq_of_lt (by omega)
  have he : Effect (.sf id a (BitVec.ofNat 4 payload.length) payload) h .idle _ := .sfMsg (by omega)
  rwa [hdl, List.take_length, BitVec.setWidth_ofNat_of_le_of_lt (by omega) (by omega)] at he

/-- R103 on R82: a first frame that `ENC` built starts its message. -/
theorem exists_effect_encFF (id : Config.Id) (a : Byte) (h : Handler) (hlong : 7 ≤ payload.length)
    (hmax : payload.length ≤ 4095) :
    ∃ r : Reassembly, r.Holds id a payload 5 1 ∧
      Effect (.ff id a (lengthHigh (BitVec.ofNat 12 payload.length))
        (lengthLow (BitVec.ofNat 12 payload.length) :: payload.take 5)) h (.receiving r) .none := by
  refine ⟨_, ?_, .ffNone⟩
  rw [assembleLength_lengthHigh_lengthLow, length_ofNat_toNat hmax, min_eq_right (by omega), List.take_take, min_self]
  have hcount : (startReassembly id a (BitVec.ofNat 12 payload.length) (payload.take 5)).rxCount.toNat = 5 := by
    rw [startReassembly_rxCount, List.length_take, min_eq_left (by omega)]
    rfl
  exact {
    id := rfl, addr := rfl, declaredLength := rfl, rxCount := hcount
    buffered := (startReassembly_inv id a _ (by rw [length_ofNat_toNat hmax, List.length_take]; omega)).buffered
    bytes := memWrite_nil_bytes _
    expSeq := rfl }

section Consecutive

variable {r : Reassembly} {off j : Nat} (hr : r.Holds id a payload off j) (hmax : payload.length ≤ 4095)
include hr hmax

theorem Reassembly.Holds.cfChunkOf_eq : cfChunkOf r ((payload.drop off).take 6) = (payload.drop off).take 6 := by
  rw [cfChunkOf, remaining, hr.declaredLength, length_ofNat_toNat hmax, hr.rxCount, List.take_take,
    List.take_eq_take_iff, List.length_drop]
  omega

theorem Reassembly.Holds.receiveChunk_rxCount :
    (receiveChunk r ((payload.drop off).take 6)).rxCount.toNat = off + min 6 (payload.length - off) := by
  rw [receiveChunk_rxCount_toNat, hr.cfChunkOf_eq hmax, hr.rxCount, List.length_take, List.length_drop]

/-- The append puts the next at most 6 payload bytes behind those that have come in (R41). -/
theorem Reassembly.Holds.receiveChunk_bytes :
    (receiveChunk r ((payload.drop off).take 6)).buf.map Prod.snd = payload.take (off + 6) := by
  rw [receiveChunk, (appendChunk_buffered hr.buffered (cfChunkOf_length_le r _)).2, hr.cfChunkOf_eq hmax, hr.bytes,
    List.take_add]

/-- R104 on R83: a consecutive frame without the last bytes hands over `None`, and its bytes have come in. -/
theorem Reassembly.Holds.effect_encCF_none (hmore : off + 6 < payload.length) :
    ∃ r' : Reassembly, r'.Holds id a payload (off + 6) (j + 1) ∧
      Effect (.cf id a (BitVec.ofNat 4 (j % 16)) ((payload.drop off).take 6)) (.receiving r) (.receiving r') .none := by
  have hcount := hr.receiveChunk_rxCount hmax
  rw [min_eq_left (by omega)] at hcount
  rw [← hr.expSeq]
  refine ⟨_, ?_, .cfNone (by rw [hcount, hr.declaredLength, length_ofNat_toNat hmax]; exact hmore)⟩
  exact {
    id := hr.id, addr := hr.addr, declaredLength := hr.declaredLength, rxCount := hcount
    buffered := receiveChunk_buffered _ hr.buffered
    bytes := hr.receiveChunk_bytes hmax
    expSeq := by
      apply BitVec.eq_of_toNat_eq
      rw [advanceSeq_expSeq, ← nextSeq, nextSeq_toNat, receiveChunk_expSeq, hr.expSeq, BitVec.toNat_ofNat,
        BitVec.toNat_ofNat]
      omega }

/-- R104, R107 on R83: the consecutive frame with the last bytes hands over the message. -/
theorem Reassembly.Holds.effect_encCF_msg (hrem : off < payload.length) (hlast : payload.length ≤ off + 6) :
    Effect (.cf id a (BitVec.ofNat 4 (j % 16)) ((payload.drop off).take 6)) (.receiving r) .idle
      (.msg (encodedMessage id a payload)) := by
  have hcount := hr.receiveChunk_rxCount hmax
  have hcomplete : (receiveChunk r ((payload.drop off).take 6)).rxCount = r.declaredLength := by
    apply BitVec.eq_of_toNat_eq
    rw [hcount, hr.declaredLength, length_ofNat_toNat hmax]
    omega
  have hread := memRead_all (receiveChunk_buffered ((payload.drop off).take 6) hr.buffered)
  rw [hr.receiveChunk_bytes hmax, List.take_of_length_le hlast] at hread
  have he := Effect.cfMsg (id := id) (addr := a) hcomplete hread
  rwa [hr.id, hr.addr, hr.declaredLength, hr.expSeq] at he

end Consecutive

/-- The loop's frames bring in the rest of the message: `None` until the last one, which hands it over. -/
theorem effects_encLoop (hmax : payload.length ≤ 4095) {fuel off j : Nat} {r : Reassembly}
    (hr : r.Holds id a payload off j) (hrem : off < payload.length) (hfuel : payload.length - off ≤ fuel) :
    Effects (encLoop id a payload fuel off j) (.receiving r) .idle
      (messageResults (encLoop id a payload fuel off j) (encodedMessage id a payload)) := by
  induction fuel generalizing off j r with
  | zero => omega
  | succ fuel ih =>
    have hd := decodeFrame_encCF id a j (List.length_take_le 6 (payload.drop off))
    rw [encLoop_of_remaining id a payload fuel j hrem]
    by_cases hmore : off + 6 < payload.length
    · obtain ⟨r', hr', he⟩ := hr.effect_encCF_none hmax hmore
      rw [messageResults_cons _ _ (encLoop_ne_nil id a payload _ hmore (by omega))]
      exact .cons hd he (ih hr' hmore (by omega))
    · rw [encLoop_of_done id a payload _ (by omega), messageResults_singleton]
      exact .cons hd (hr.effect_encCF_msg hmax hrem (by omega)) .nil

/-- R89 on the handler: from any handler, the frames of an encoded message hand it over and leave Idle. -/
theorem effects_encFrames (id : Config.Id) (dest : Nat) (h : Handler) (hmin : 1 ≤ payload.length)
    (hmax : payload.length ≤ 4095) :
    Effects (encFrames id dest payload) h .idle
      (messageResults (encFrames id dest payload) (encodedMessage id (maskAddr dest) payload)) := by
  by_cases hshort : payload.length < 7
  · rw [encFrames_of_short id dest hshort, messageResults_singleton]
    exact .cons (decodeFrame_encSF id _ hshort) (effect_encSF id _ h hmin hshort) .nil
  · have hlong : 7 ≤ payload.length := by omega
    obtain ⟨r, hr, he⟩ := exists_effect_encFF id (maskAddr dest) h hlong hmax
    rw [encFrames_of_long id dest hlong,
      messageResults_cons _ _ (encLoop_ne_nil id _ payload _ (by omega) (by omega))]
    exact .cons (decodeFrame_encFF id _ hlong) he (effects_encLoop hmax hr (by omega) (by omega))

end Sys2Proof.Machine
end

section
/-! # The obligations of spec/40_encoder.md -/

namespace Sys2Proof.Machine

/-- R88: what can be presented to `ENC` has an effect, which keeps the handler. -/
theorem exec_enc (id : Config.Id) (dest : Nat) {payload : List Byte} (s : State) (hmax : payload.length ≤ 4095) :
    exec (.enc id dest payload) s =
      .next { s with results := s.results ++ [.frames (encFrames id dest payload)] } :=
  exec_of_effect (.enc hmax)

/-- Settles O20: `exec_enc`, and a payload that does not fit fails the one test `ENC` makes. -/
theorem encReturnsFramesAndTouchesNothing : Obligations.EncReturnsFramesAndTouchesNothing := by
  intro id dest payload s
  refine ⟨exec_enc id dest s, fun hlong => ?_⟩
  have hfits : ¬ PayloadFits payload := hlong.not_ge
  rw [exec, execEnc, if_neg hfits]

/-- Settles O21: the one frame is R81's, whose type bits are 0. -/
theorem encOfAShortPayload : Obligations.EncOfAShortPayload := by
  intro id dest payload s hshort
  rw [exec_enc id dest s (by omega), encFrames_of_short id dest hshort, encSF_maskAddr]

/-- Settles O22: the first frame's bytes, and the loop in closed form (`encLoop_eq_map`). -/
theorem encOfALongPayload : Obligations.EncOfALongPayload := by
  intro id dest payload s hmin hmax
  rw [exec_enc id dest s hmax, encFrames_of_long id dest hmin, encFF_maskAddr id dest hmin hmax,
    encLoop_eq_map id _ payload 1 (by omega)]
  simp only [encCF_maskAddr, List.length_take, List.length_drop, Nat.add_comm 1]

/-- Settles O24: what `ENC` handed over is its frame sequence, whose effects on an Idle handler give the message back
(`effects_encFrames`), and the run goes along them. -/
theorem encodedMessagesComeBackWhole : Obligations.EncodedMessagesComeBackWhole := by
  intro id dest payload s₀ t₀ s fs rest hmin hmax henc hfs hs hp
  rw [exec_enc id dest s₀ hmax] at henc
  obtain rfl := Host.Outcome.next.inj henc
  obtain rfl : encFrames id dest payload = fs := by simpa using hfs
  rw [run_of_effects (effects_encFrames id dest .idle hmin hmax) hs hp, ← maskAddr_eq, hs]
  rfl

end Sys2Proof.Machine
end

section
/-! # The decoder on one frame

What the registers of a starting frame hold, what a consecutive frame does with the number that is expected, which class
the type of byte 1 selects, and that no effect under the invariant finds a length mismatch. -/

namespace Sys2Proof.Machine

/-! ### The registers after a first frame -/

section FirstFrame

variable (id : Config.Id) (addr : Byte) {L : Len} {chunk : List Byte} (h : chunk.length ≤ min L.toNat 5)
include h

theorem startReassembly_rxCount_toNat : (startReassembly id addr L chunk).rxCount.toNat = chunk.length := by
  rw [← (startReassembly_inv id addr L h).bytes_length, startReassembly_buf, memWrite_nil_bytes]

theorem startReassembly_read :
    memRead (startReassembly id addr L chunk).buf 0 (startReassembly id addr L chunk).rxCount.toNat = some chunk := by
  rw [(startReassembly_inv id addr L h).read, startReassembly_buf, memWrite_nil_bytes]

theorem cfChunkOf_startReassembly (body : List Byte) :
    cfChunkOf (startReassembly id addr L chunk) body = body.take (min (L.toNat - chunk.length) 6) := by
  rw [cfChunkOf, remaining, startReassembly_rxCount_toNat id addr h, startReassembly_declaredLength]

end FirstFrame

/-- R67: with a high part of 0 the declared length is the length byte. -/
theorem assembleLength_zero (byte2 : Byte) : assembleLength 0 byte2 = BitVec.ofNat 12 byte2.toNat := by
  have := byte2.isLt
  apply BitVec.eq_of_toNat_eq
  rw [assembleLength_toNat, BitVec.toNat_ofNat, show (0 : Nibble).toNat = 0 from rfl]
  omega

/-! ### Consecutive frames -/

theorem receiveChunk_read {r : Reassembly} (hr : r.Inv) (body : List Byte) :
    memRead (receiveChunk r body).buf 0 (receiveChunk r body).rxCount.toNat =
      some (r.buf.map Prod.snd ++ cfChunkOf r body) := by
  rw [memRead_all (receiveChunk_buffered body hr.buffered)]
  exact congrArg some (appendChunk_buffered hr.buffered (cfChunkOf_length_le r body)).2

section ConsecutiveFrame

variable {s : State} {r : Reassembly}

/-- R132: in Idle no number is expected. -/
theorem exec_cf_of_idle (hs : s.handler = .idle) (id : Config.Id) (addr : Byte) (sn : Nibble) (body : List Byte) :
    exec (.cf id addr sn body) s = .next { s with results := s.results ++ [.err .sequenceError] } := by
  have he : Effect (.cf id addr sn body) s.handler s.handler (.err .sequenceError) := hs ▸ .cfIdle
  exact exec_of_effect he

/-- R132: another number than the expected one. -/
theorem exec_cf_of_unexpected (hs : s.handler = .receiving r) {sn : Nibble} (hsn : sn ≠ r.expSeq) (id : Config.Id)
    (addr : Byte) (body : List Byte) :
    exec (.cf id addr sn body) s = .next { s with results := s.results ++ [.err .sequenceError] } := by
  have he : Effect (.cf id addr sn body) s.handler s.handler (.err .sequenceError) := hs ▸ .cfUnexpected hsn
  exact exec_of_effect he

variable (hs : s.handler = .receiving r) (hr : r.Inv) (id : Config.Id) (addr : Byte) {body : List Byte}
include hs

/-- R104: a chunk that leaves bytes to come. -/
theorem exec_cf_continues (hmore : r.rxCount.toNat + (cfChunkOf r body).length < r.declaredLength.toNat) :
    exec (.cf id addr r.expSeq body) s = .next { s with
      handler := .receiving (advanceSeq (receiveChunk r body)), results := s.results ++ [.none] } := by
  rw [← receiveChunk_rxCount_toNat] at hmore
  exact exec_of_effect (hs ▸ .cfNone hmore)

include hr

/-- R104, R107: a chunk that brings the count to the declared length. -/
theorem exec_cf_completes (hcount : r.rxCount.toNat + (cfChunkOf r body).length = r.declaredLength.toNat) :
    exec (.cf id addr r.expSeq body) s = .next { s with
      handler := .idle
      results := s.results ++ [.msg { id := r.id, addr := r.addr, declaredLength := r.declaredLength,
                                      data := r.buf.map Prod.snd ++ cfChunkOf r body }] } := by
  rw [← receiveChunk_rxCount_toNat] at hcount
  exact exec_of_effect (hs ▸ .cfMsg (BitVec.eq_of_toNat_eq hcount) (receiveChunk_read hr body))

end ConsecutiveFrame

/-- R108: the consecutive frame after a first frame completes the message if it brings the bytes the first one left. -/
theorem exec_cf_completes_startReassembly {s : State} {id : Config.Id} {addr : Byte} {L : Len}
    {chunk body part : List Byte} (hs : s.handler = .receiving (startReassembly id addr L chunk))
    (hchunk : chunk.length ≤ min L.toNat 5) (id' : Config.Id) (addr' : Byte)
    (hpart : body.take (min (L.toNat - chunk.length) 6) = part) (hcount : chunk.length + part.length = L.toNat) :
    exec (.cf id' addr' 1 body) s = .next { s with
      handler := .idle
      results := s.results ++ [.msg { id := id, addr := addr, declaredLength := L, data := chunk ++ part }] } := by
  rw [← cfChunkOf_startReassembly id addr hchunk] at hpart
  subst hpart
  rw [← startReassembly_rxCount_toNat id addr hchunk] at hcount
  have := exec_cf_completes hs (startReassembly_inv id addr L hchunk) id' addr' hcount
  rwa [startReassembly_buf, memWrite_nil_bytes] at this

/-! ### `PUSH` -/

theorem exec_push_of_short {f : Frame} (hf : f.IsFrame) (hshort : f.length < 2) (s : State) :
    exec (.push f) s = .next { s with results := s.results ++ [.err .malformedFrame] } :=
  exec_of_effect (.pushShort hf (hf.1.trans_lt hshort))

theorem exec_push_of_two_bytes {f : Frame} {addr b1 : Byte} {body : List Byte} (hf : f.IsFrame)
    (hd : f.data = addr :: b1 :: body) (s : State) : exec (.push f) s = exec (classify f.id addr b1 body) s :=
  pushRunsTheClassOfItsFrame f _ s (decodeFrame_of_two_bytes hf hd)

/-- R61: the field `low` as a number. -/
theorem lowNibble_eq_ofNat (b1 : Byte) : lowNibble b1 = BitVec.ofNat 4 (b1.toNat % 16) := by
  rw [← lowNibble_toNat, BitVec.ofNat_toNat, BitVec.setWidth_eq]

section Types

variable {b1 : Byte} (id : Config.Id) (addr : Byte) (body : List Byte)

theorem classify_of_type_zero (h : b1.toNat / 16 = 0) :
    classify id addr b1 body = .sf id addr (BitVec.ofNat 4 (b1.toNat % 16)) body := by
  rw [classify_eq, if_pos h, lowNibble_eq_ofNat]

theorem classify_of_type_one (h : b1.toNat / 16 = 1) :
    classify id addr b1 body = .ff id addr (BitVec.ofNat 4 (b1.toNat % 16)) body := by
  rw [classify_eq, if_neg (by omega), if_pos h, lowNibble_eq_ofNat]

theorem classify_of_type_two (h : b1.toNat / 16 = 2) :
    classify id addr b1 body = .cf id addr (BitVec.ofNat 4 (b1.toNat % 16)) body := by
  rw [classify_eq, if_neg (by omega), if_neg (by omega), if_pos h, lowNibble_eq_ofNat]

theorem classify_of_type_three (h : b1.toNat / 16 = 3) :
    classify id addr b1 body = .fc id addr (BitVec.ofNat 4 (b1.toNat % 16)) body := by
  rw [classify_eq, if_neg (by omega), if_neg (by omega), if_neg (by omega), if_pos h, lowNibble_eq_ofNat]

/-- The types 4 to 15 select one of the two unknown classes. -/
theorem classify_of_type_unknown (h : 4 ≤ b1.toNat / 16) :
    (∃ low, classify id addr b1 body = .unk47 id addr low body) ∨
      ∃ low, classify id addr b1 body = .unk8F id addr low body := by
  rw [classify_eq, if_neg (by omega), if_neg (by omega), if_neg (by omega), if_neg (by omega)]
  split_ifs
  · exact .inl ⟨_, rfl⟩
  · exact .inr ⟨_, rfl⟩

end Types

/-! ### No length mismatch -/

/-- R109: the one effect that hands over `LengthMismatch` needs a count past the declared length. -/
theorem Effect.ne_lengthMismatch {i : Instr} {h h' : Handler} {x : Result} (he : Effect i h h' x)
    (hinv : ∀ r, h = .receiving r → r.Inv) : x ≠ .err .lengthMismatch := by
  cases he with
  | @cfOverrun _ _ body r excess =>
    have := receiveChunk_bounded body (hinv r rfl).bounded
    omega
  | _ => nofun

/-- What every step keeps, a run keeps. -/
theorem run_keeps {P : State → Prop} (hstep : ∀ s t, P s → step s = .next t → P t) {k : Nat} {s t : State}
    (hs : P s) (ht : Host.Core.run Sys2Proof.core k s = .next t) : P t := by
  induction k generalizing s with
  | zero => rw [run_zero] at ht; exact Host.Outcome.next.inj ht ▸ hs
  | succ k ih =>
    obtain ⟨u, hu, hrun⟩ := run_succ_next ht
    exact ih (hstep s u hs hu) hrun

/-- The invariant, together with R109 on the results handed over so far. -/
def State.InvWithoutMismatch (s : State) : Prop := s.Inv ∧ .err .lengthMismatch ∉ s.results

theorem step_keeps_invWithoutMismatch (s t : State) (hs : s.InvWithoutMismatch) (ht : step s = .next t) :
    t.InvWithoutMismatch := by
  obtain ⟨hinv, hres⟩ := hs
  refine ⟨stepKeepsTheInvariant s t hinv ht, ?_⟩
  obtain ⟨-, rfl⟩ | ⟨rest, -, rfl⟩ | ⟨c, rest, i, -, -, hexec⟩ := step_cases ht
  · exact hres
  · rw [clearHandler_results]
    simp [hres]
  · obtain ⟨h, x, he, rfl⟩ := exec_next_iff.1 hexec
    have hx : x ≠ .err .lengthMismatch := he.ne_lengthMismatch (State.inv_iff.1 hinv)
    simp [hres, hx.symm]

end Sys2Proof.Machine
end

section
/-! # The obligations of spec/41_decoder.md -/

namespace Sys2Proof.Machine

/-! ### Consecutive frames -/

/-- Settles O7: the buffer after the append reads as the old bytes and the chunk (`receiveChunk_read`), and the chunk
never passes what remains (`receiveChunk_bounded`). -/
theorem consecutiveFrameRule : Obligations.ConsecutiveFrameRule := by
  intro id addr sn body s hinv
  refine ⟨fun hs => exec_cf_of_idle hs id addr sn body, fun r hs => ?_⟩
  refine ⟨fun hsn => exec_cf_of_unexpected hs hsn id addr body, ?_⟩
  rintro rfl
  have hr : r.Inv := State.inv_iff.1 hinv r hs
  refine ⟨_, hr.read, fun chunk hchunk => ?_⟩
  obtain rfl : chunk = cfChunkOf r body := hchunk
  refine ⟨exec_cf_completes hs hr id addr, fun hne => ?_⟩
  have hmore : r.rxCount.toNat + (cfChunkOf r body).length < r.declaredLength.toNat := by
    have := receiveChunk_bounded body hr.bounded
    rw [receiveChunk_rxCount_toNat] at this
    omega
  exact ⟨_, exec_cf_continues hs id addr hmore, rfl, rfl, rfl, receiveChunk_rxCount_toNat r body,
    receiveChunk_read hr body, nextSeq_toNat r.expSeq⟩

/-- Settles O10: what is handed over is an effect's result. -/
theorem lengthMismatchNeverReturned : Obligations.LengthMismatchNeverReturned := by
  intro i s t hs ht
  obtain ⟨h, x, he, rfl⟩ := exec_next_iff.1 ht
  have hx : x ≠ .err .lengthMismatch := he.ne_lengthMismatch (State.inv_iff.1 hs)
  rw [deliver_results, setHandler_results]
  simpa using hx

/-- Settles O11, by induction on the run: it starts with no result, and every step keeps `InvWithoutMismatch`. -/
theorem lengthMismatchNeverOccursInARun : Obligations.LengthMismatchNeverOccursInARun := by
  intro inputs n t ht
  have hstart : State.InvWithoutMismatch { State.reset with pending := inputs } :=
    ⟨resetStateMeetsTheInvariant, List.not_mem_nil⟩
  obtain ⟨hinv, hres⟩ := run_keeps step_keeps_invWithoutMismatch hstart ht
  exact ⟨hres, fun r hr => (State.inv_iff.1 hinv r hr).bounded⟩

/-! ### Starting frames -/

/-- Settles O1: the two effects of a single frame. -/
theorem singleFrameReturnsItsMessage : Obligations.SingleFrameReturnsItsMessage := by
  intro id addr dl body s
  refine ⟨fun hlegal => ?_, fun hillegal => exec_of_effect (.sfErr (by omega))⟩
  rw [BitVec.ofNat_toNat]
  exact exec_of_effect (.sfMsg hlegal)

/-- Settles O2: the registers are those of `startReassembly`, which meet the invariant. -/
theorem firstFrameStartsReassembly : Obligations.FirstFrameStartsReassembly := by
  intro id addr hi s
  refine ⟨fun byte2 payload => ?_, exec_of_effect .ffErr⟩
  rw [← assembleLength_toNat]
  have hchunk := List.length_take_le (min (assembleLength hi byte2).toNat 5) payload
  exact ⟨_, exec_of_effect .ffNone, rfl, rfl, rfl, startReassembly_rxCount_toNat id addr hchunk,
    startReassembly_read id addr hchunk,
    fun a => readByte_eq_none (startReassembly_inv id addr _ hchunk).buffered, rfl⟩

/-- Settles O4: the effects of a legal starting frame are the same from every handler, and those of a rejected one keep
it. -/
theorem startingFramesOverwriteSilently : Obligations.StartingFramesOverwriteSilently := by
  intro id addr low body r s
  refine ⟨fun hlegal => ?_, fun hillegal => exec_of_effect (.sfErr (by omega)), fun hbody => ?_, ?_⟩
  · rw [exec_of_effect (.sfMsg hlegal), exec_of_effect (.sfMsg hlegal)]
    rfl
  · obtain ⟨byte2, payload, rfl⟩ := List.exists_cons_of_ne_nil hbody
    rw [exec_of_effect .ffNone, exec_of_effect .ffNone]
    rfl
  · rintro rfl
    exact exec_of_effect .ffErr

/-- Settles O5: after the first frame nothing is left to come of 5 bytes or fewer, and one byte of 6, so the consecutive
frame's part of the payload is empty or that byte (`exec_cf_completes_startReassembly`). -/
theorem firstFramesDeclaringFewBytes : Obligations.FirstFramesDeclaringFewBytes := by
  rintro id id' addr addr' hi byte2 payload body s t rfl ht
  have hL : (BitVec.ofNat 12 byte2.toNat).toNat = byte2.toNat := Nat.mod_eq_of_lt (by have := byte2.isLt; omega)
  rw [exec_of_effect .ffNone, assembleLength_zero, hL] at ht
  obtain ⟨hs, hres⟩ : t.handler = .receiving (startReassembly id addr (BitVec.ofNat 12 byte2.toNat)
      (payload.take (min byte2.toNat 5))) ∧ t.results = s.results ++ [.none] :=
    Host.Outcome.next.inj ht ▸ ⟨rfl, rfl⟩
  refine ⟨hres, ⟨_, hs⟩, fun hfew hcarried => ?_, ?_⟩
  · have hlen : (payload.take byte2.toNat).length = byte2.toNat := List.length_take_of_le hcarried
    rw [min_eq_left hfew] at hs
    have hcf := exec_cf_completes_startReassembly (body := body) (part := []) hs (by rw [hL, hlen]; omega) id' addr'
      (by rw [hL, hlen, Nat.sub_self]; rfl) (by rw [hL, hlen]; rfl)
    rwa [List.append_nil] at hcf
  · rintro hsix hcarried b rest rfl
    have hlen : (payload.take 5).length = 5 := List.length_take_of_le hcarried
    rw [hsix, min_eq_right (by decide)] at hs
    exact exec_cf_completes_startReassembly (part := [b]) hs hlen.le id' addr'
      (by rw [hlen]; rfl) (by rw [hlen]; rfl)

/-- Settles O48: after a completion the handler is Idle, where every consecutive frame is out of turn. -/
theorem completionLeavesAFreshHandler : Obligations.CompletionLeavesAFreshHandler := by
  refine fun s => ⟨fun id addr dl body hmin hmax => ?_, fun id addr body d r hinv hs hd hbytes => ?_⟩
  · exact ⟨_, (singleFrameReturnsItsMessage id addr dl body s).1 ⟨hmin, hmax⟩, rfl, rfl, rfl, exec_cf_of_idle rfl⟩
  · have hr : r.Inv := State.inv_iff.1 hinv r hs
    have hbounded := hr.bounded
    obtain rfl : r.buf.map Prod.snd = d := Option.some.inj (hr.read.symm.trans hd)
    have hchunk : cfChunkOf r body = body.take (r.declaredLength.toNat - r.rxCount.toNat) := by
      rw [cfChunkOf, remaining, min_eq_left (by omega)]
    have hcount : r.rxCount.toNat + (cfChunkOf r body).length = r.declaredLength.toNat := by
      rw [hchunk, List.length_take]
      omega
    rw [← hchunk]
    exact ⟨_, exec_cf_completes hs hr id addr hcount, rfl, rfl, rfl, exec_cf_of_idle rfl⟩

/-! ### Flow control, unknown discriminators, and `PUSH` itself -/

/-- Settles O14: the one effect of a flow-control frame. -/
theorem flowControlHasNoEffect : Obligations.FlowControlHasNoEffect :=
  fun _ _ _ _ _ => exec_of_effect .fc

/-- Settles O15: the one effect of each unknown class. -/
theorem unknownDiscriminatorIsRejected : Obligations.UnknownDiscriminatorIsRejected :=
  fun _ _ _ _ _ _ => ⟨exec_of_effect .unk47, exec_of_effect .unk8F⟩

/-- Settles O3: `PUSH` itself answers a frame without byte 1, and the other's class is a first frame without byte 2. -/
theorem malformedFramesChangeNothing : Obligations.MalformedFramesChangeNothing := by
  refine fun s => ⟨fun f hf hshort => exec_push_of_short hf hshort s, fun id addr b1 htype => ?_⟩
  rw [exec_push_of_two_bytes ⟨rfl, show 2 ≤ 8 by decide⟩ rfl, classify_of_type_one id addr [] htype]
  exact exec_of_effect .ffErr

/-- Settles O16: `PUSH` runs the class that byte 1's type selects. -/
theorem pushGoesByTheDiscriminator : Obligations.PushGoesByTheDiscriminator := by
  refine fun f s hf => ⟨fun hshort => exec_push_of_short hf hshort s, fun addr b1 body hd => ?_⟩
  rw [exec_push_of_two_bytes hf hd]
  refine ⟨fun h => ?_, fun h => ?_, fun h => ?_, fun h => ?_, fun h => ?_⟩
  · rw [classify_of_type_zero _ _ _ h]
  · rw [classify_of_type_one _ _ _ h]
  · rw [classify_of_type_two _ _ _ h]
  · rw [classify_of_type_three _ _ _ h]
    exact exec_of_effect .fc
  · obtain ⟨low, hclass⟩ | ⟨low, hclass⟩ := classify_of_type_unknown f.id addr body h
    · rw [hclass]
      exact exec_of_effect .unk47
    · rw [hclass]
      exact exec_of_effect .unk8F

end Sys2Proof.Machine
end

section
/-! # The obligations of spec/42_control.md -/

namespace Sys2Proof.Machine

/-- Settles O25: the one effect of `ABORT` is there from every handler. -/
theorem abortLeavesIdle : Obligations.AbortLeavesIdle :=
  fun _ => exec_of_effect .abort

/-- R72: operation code 3 selects the reserved operation, whatever stands on the operand lanes. -/
theorem decode_of_op_three {c : Command} (hop : c.op = 3) : decode c = .ok .rsvdOp3 := by
  rw [decode, hop]
  rfl

/-- R121: the reserved operation is given no meaning. -/
theorem exec_rsvdOp3 (s : State) : exec .rsvdOp3 s = .refused .reservedOperation := rfl

/-- Settles O26: a command of code 3 decodes to the reserved operation, so its step is refused as that is. -/
theorem reservedOperationIsRefused : Obligations.ReservedOperationIsRefused := by
  refine fun s c rest => ⟨exec_rsvdOp3 s, fun hop hs => ?_⟩
  rw [step_of_pending_command hs, execCommand_of_decode_ok (decode_of_op_three hop), exec_rsvdOp3]

end Sys2Proof.Machine
end

section
/-! # The obligations of spec/60_exceptions.md -/

namespace Sys2Proof.Machine

/-- R137: the one error that would leave registers written is `LengthMismatch`, which the invariant excludes (R109). -/
theorem Effect.handler_eq_of_err {i : Instr} {h h' : Handler} {e : ErrorKind} (he : Effect i h h' (.err e))
    (hinv : ∀ r, h = .receiving r → r.Inv) : h' = h := by
  have hne : Result.err e ≠ .err .lengthMismatch := he.ne_lengthMismatch hinv
  cases he with
  | cfOverrun => exact absurd rfl hne
  | sfErr | ffErr | cfIdle | cfUnexpected | unk47 | unk8F | pushShort => rfl

/-- Settles O35: an effect with an error for its result keeps the handler (`Effect.handler_eq_of_err`), and no effect
touches the pending inputs. -/
theorem errorsLeaveTheHandlerAsItWas : Obligations.ErrorsLeaveTheHandlerAsItWas := by
  intro i s t e hs ht hres
  obtain ⟨h, x, he, rfl⟩ := exec_next_iff.1 ht
  obtain rfl : x = .err e := by simpa using hres
  exact ⟨he.handler_eq_of_err (State.inv_iff.1 hs), rfl⟩

/-- Settles O6: the two cases of R132, one lemma each. -/
theorem consecutiveFrameOutOfTurn : Obligations.ConsecutiveFrameOutOfTurn := by
  rintro id addr sn body s (hidle | ⟨r, hr, hsn⟩)
  · exact exec_cf_of_idle hidle id addr sn body
  · exact exec_cf_of_unexpected hr hsn id addr body

/-- Settles O33: a step takes the oldest pending input, and there is none. -/
theorem nothingHappensWithoutAHostOperation : Obligations.NothingHappensWithoutAHostOperation := by
  intro s hs
  rw [step, takeInput, hs]

/-- Settles O47: the codes of R130, read off the table. -/
theorem errorCodes : Obligations.ErrorCodes := ⟨rfl, fun _ => rfl, rfl, rfl, rfl, rfl, rfl⟩

end Sys2Proof.Machine
end

section
/-! # The obligations of spec/70_reset_and_hazards.md -/

namespace Sys2Proof.Machine

/-! ### Reset -/

/-- A step takes the oldest pending reset off the list and creates the handler anew (R150). -/
theorem step_of_pending_reset {s : State} {rest : List HostInput} (hp : s.pending = .reset :: rest) :
    step s = .next (clearHandler { s with pending := rest }) := by
  rw [step, takeInput, hp]
  rfl

/-- Settles O28: what the reset leaves does not mention the handler that was there. -/
theorem resetMayBeAppliedInAnyState : Obligations.ResetMayBeAppliedInAnyState :=
  fun _ _ hp => step_of_pending_reset hp

/-! ### Lost frames -/

/-- R68, R153: sixteen frames on, the sender writes the same sequence number, so the frame is the same value. -/
theorem encCF_add_sixteen (id : Config.Id) (a : Byte) (j : Nat) (chunk : List Byte) :
    encCF id a (j + 16) chunk = encCF id a j chunk := by
  rw [encCF, encCF, Nat.add_mod_right]

/-- A `PUSH` of the sender's frame `j` where it is expected is the consecutive frame with the expected number. -/
theorem exec_push_encCF_of_expected {r : Reassembly} {j : Nat} (hj : r.expSeq.toNat = j % 16) (id : Config.Id)
    (a : Byte) {chunk : List Byte} (hlen : chunk.length ≤ 6) (s : State) :
    exec (.push (encCF id a j chunk)) s = exec (.cf id a r.expSeq chunk) s := by
  have hd := decodeFrame_encCF id a j hlen
  rw [← hj, BitVec.ofNat_toNat, BitVec.setWidth_eq] at hd
  exact pushRunsTheClassOfItsFrame _ _ s hd

/-- Settles O13: frame `j + 16` is the expected frame `j` (`encCF_add_sixteen`), so R104 accepts it
(`consecutiveFrameRule`) and stores its chunk (`consecutiveFrameStoresOnlyItsChunk`). -/
theorem sixteenLostFramesAreNotSeen : Obligations.SixteenLostFramesAreNotSeen := by
  intro id a j chunk s r hinv hs hj hlen
  rw [encCF_add_sixteen, exec_push_encCF_of_expected hj id a hlen s]
  obtain ⟨d, hd, hrule⟩ := ((consecutiveFrameRule id a r.expSeq chunk s hinv).2 r hs).2 rfl
  refine ⟨d, hd, fun part hpart => ?_⟩
  have htake : part = chunk.take (min (r.declaredLength.toNat - r.rxCount.toNat) 6) := by
    rw [hpart, List.take_eq_take_iff]
    omega
  obtain ⟨hcompletes, hcontinues⟩ := hrule part htake
  refine ⟨hcompletes, fun hne => ?_⟩
  obtain ⟨r', hnext, hid, haddr, hdeclared, hcount, hread, hseq⟩ := hcontinues hne
  have hstored := (consecutiveFrameStoresOnlyItsChunk id a chunk s _ r r' hs hnext rfl part htake).1
  exact ⟨r', hnext, hid, haddr, hdeclared, hcount, hread, hstored, by omega⟩

end Sys2Proof.Machine
end
